-- ==== Sys2Proof/Word.lean ====
section
/-! DEFINITION. The words and colours of the WS2812 pulse encoder (R7, R14, R49): no behaviour. -/

namespace Sys2Proof

/-- A word of the command port CMDIN: a command word or a FILLFROM data word (R21, R65). -/
abbrev CmdWord := BitVec 64

/-- A word the host reads: RESULT or STATUS (R29, R34, R49). -/
abbrev ReadWord := BitVec 32

/-- The opaque io target of INITIALIZE (R13). -/
abbrev Target := BitVec 32

/-- One 8-bit colour channel (R7). -/
abbrev Channel := BitVec 8

/-- A pulse code or a transfer-buffer slot: an unsigned value below `2 ^ CODE_BITS` (R10).
The block never adds, shifts or masks one and no host reads one, so it is a number. -/
abbrev PulseCode := Nat

/-- A colour-store entry, HSV24 (R7, R23). -/
structure Hsv where
  h : Channel
  s : Channel
  v : Channel
  deriving DecidableEq, Repr, Inhabited

/-- The transient RGB24 colour that hsvToRgb produces (R7, R11, R42). -/
structure Rgb where
  r : Channel
  g : Channel
  b : Channel
  deriving DecidableEq, Repr, Inhabited

/-- BLACK is the HSV colour (0, 0, 0) (R12). It is also what every entry reads at reset (R23). -/
def Hsv.black : Hsv := ⟨0, 0, 0⟩

/-- The RGB colour (0, 0, 0), the value law (c) of R11 names. -/
def Rgb.zero : Rgb := ⟨0, 0, 0⟩

/-- TARGET_NONE (R13). -/
def targetNone : Target := 0

/-- BITS_PER_LED = 24 (R7). -/
def bitsPerLed : Nat := 24

end Sys2Proof
end

