-- ==== Sys2Proof/Config.lean ====
section
/-! DEFINITION. What is fixed at launch (R8 to R11, R18, R42), and the free values no rule fixes. -/

namespace Sys2Proof

/-- The configuration of one block. The spec leaves every field open (D7, D8, D9, D17), so a claim
about every state is a claim about every configuration: State carries one and no step changes it. -/
structure Config where
  /-- N, the number of LEDs (R8). -/
  ledCapacity : Nat
  /-- CODE_BITS, the width of one slot (R10). -/
  codeBits : Nat
  /-- ONE_CODE (R10). -/
  oneCode : PulseCode
  /-- ZERO_CODE (R10). -/
  zeroCode : PulseCode
  /-- The values of hsvToRgb that this configuration names, as premises (R11, D9); every other value
  is `Config.freeRgb`'s (log entry 2). -/
  hsvKnown : List (Hsv × Rgb)
  /-- DMA_FAIR: whether the DMA agent is assumed weakly fair (R136, D17). -/
  dmaFair : Bool
  deriving DecidableEq, Repr

/-- L = 24 * N, the length of the transfer buffer in slots (R9). -/
def Config.bufferLength (c : Config) : Nat := bitsPerLed * c.ledCapacity

/-- The bounds the spec puts on its parameters: 1 <= N <= 65536 (R8), CODE_BITS >= 1 and codes of
CODE_BITS bits (R10). -/
abbrev Config.wf (c : Config) : Prop :=
  1 ≤ c.ledCapacity ∧ c.ledCapacity ≤ 65536 ∧ 1 ≤ c.codeBits ∧
    c.oneCode < 2 ^ c.codeBits ∧ c.zeroCode < 2 ^ c.codeBits

/-- FREE VALUE. hsvToRgb where neither law (c) of R11 nor the configuration names its value: total and
a function of its argument alone, nothing else known (log entry 2). -/
opaque Config.freeRgb : Hsv → Rgb

/-- FREE VALUE. The draw of a hardwareInitialize call for which the state lists no outcome (R132, log entry 4). -/
opaque Config.freeDraw : Nat → Bool

/-- FREE VALUE. Whether CMD moves before DMA when both are enabled and the state lists no move
(R54, R130, log entry 3). -/
opaque Config.freeTurn : Nat → Bool

/-- FREE VALUE. Whether an unfair backend stalls at this step (R135, R136, log entry 3). -/
opaque Config.freeStall : Nat → Bool

/-- FREE VALUE. How many moves of others a fair DMA agent waits at most (R136, log entry 3). -/
opaque Config.freeWait : Nat → Nat

/-- FREE VALUE. The next word of an endless host stream that nothing fixes (R18, R44, log entry 19). -/
opaque Config.freeWord : Nat → CmdWord

/-- DESIGN CHOICE (log entry 1, unsafe): the configuration of the one machine `State.reset` launches.
N = 2 is the capacity of the source's scenario S1; CODE_BITS = 8, ONE_CODE = 40, ZERO_CODE = 20 is the
pair 95_test_vectors.md names "where a concrete pair is needed". -/
def Config.launch : Config :=
  { ledCapacity := 2, codeBits := 8, oneCode := 40, zeroCode := 20, hsvKnown := [], dmaFair := true }

end Sys2Proof
end

