-- ==== Sys2Proof/Syntax.lean ====
section
/-! DEFINITION. The command set: one constructor per row of spec/opcode_table.json (R75), the pseudo-instructions
of R84 and the assembler lines of R83. -/

namespace Sys2Proof

/-- The ten commands (R75), each with the fields its own encoding gives it (R66 to R74). -/
inductive Instr where
  /-- SETCOLOR idx, h, s, v (R88). -/
  | setColor (idx : BitVec 16) (c : Hsv)
  /-- GETCOLOR idx (R89). -/
  | getColor (idx : BitVec 16)
  /-- SETCHANNEL idx, v (R90). -/
  | setChannel (idx : BitVec 16) (v : Channel)
  /-- SCALECHANNEL idx, pct (R91). -/
  | scaleChannel (idx : BitVec 16) (pct : BitVec 8)
  /-- FILL h, s, v (R92). -/
  | fill (c : Hsv)
  /-- FILLFROM with its N data words as supplied, reserved bits included, since a bad data word is a
  fault of this command and not of its decoding (R74, R93, R120). -/
  | fillFrom (data : List CmdWord)
  /-- INITIALIZE target (R108). -/
  | initTarget (target : Target)
  /-- ENABLE (R110 to R112). -/
  | enable
  /-- ISREADY (R113). -/
  | isReady
  /-- REQUESTUPDATE ord, all four values of ORD (R69, R114, R115). -/
  | requestUpdate (ord : BitVec 2)
  deriving DecidableEq, Repr

/-- The assigned opcodes (R75). -/
inductive Opcode where
  | setColor | getColor | setChannel | scaleChannel | fill | fillFrom | initTarget | enable | isReady | requestUpdate
  deriving DecidableEq, Repr

/-- The operand formats of DATA (R70 to R73). -/
inductive Format where
  | hsv | val8 | tgt | none
  deriving DecidableEq, Repr

/-- The pseudo-instruction CLEAR (R84). -/
def Instr.clear : Instr := .fill Hsv.black

/-- The pseudo-instruction OFF idx (R84). -/
def Instr.off (idx : BitVec 16) : Instr := .setColor idx Hsv.black

/-- The pseudo-instruction UPDATE (R84). -/
def Instr.update : Instr := .requestUpdate 0

/-- The operand of REQUESTUPDATE in the assembler (R83): RGB, GRB or ORD=n. -/
inductive AsmOrder where
  | rgb
  | grb
  | ord (n : Nat)
  deriving DecidableEq, Repr

/-- A line of the assembler of R83 and R84 after its operands have been read as numbers. -/
inductive AsmLine where
  | setColor (idx h s v : Nat)
  | getColor (idx : Nat)
  | setChannel (idx v : Nat)
  | scaleChannel (idx pct : Nat)
  | fill (h s v : Nat)
  | fillFrom (triples : List (Nat × Nat × Nat))
  | initTarget (target : Nat)
  | enable
  | isReady
  | requestUpdate (o : AsmOrder)
  | clear
  | off (idx : Nat)
  | update
  deriving DecidableEq, Repr

end Sys2Proof
end

