-- ==== Sys2Proof/WellFormed.lean ====
section
/-! DEFINITION. Which command terms the model boundary admits (R16, R93). -/

namespace Sys2Proof

/-- The one check a term can fail: a FILLFROM carries exactly N data words (R16, R93; V5 of
93_implementation_defined.md). Every other field is as wide as its encoding, and IDX >= N is no
ill-formed term (R68). -/
def WellFormed (n : Nat) : Instr → Bool
  | .setColor _ _ => true
  | .getColor _ => true
  | .setChannel _ _ => true
  | .scaleChannel _ _ => true
  | .fill _ => true
  | .fillFrom data => data.length == n
  | .initTarget _ => true
  | .enable => true
  | .isReady => true
  | .requestUpdate _ => true

end Sys2Proof
end

