-- ==== Sys2Proof/Decode.lean ====
section
/-! DEFINITION. The command encoding of 30_encoding.md: decoding of any stream of 64-bit words, and the encoder
written from the same tables. -/

namespace Sys2Proof

/-! ## The fields of a command word (R66) -/

/-- OP = w[63:56] (R67). -/
def fieldOp (w : CmdWord) : BitVec 8 := w.extractLsb' 56 8

/-- RSV = w[55:50] (R66). -/
def fieldRsv (w : CmdWord) : BitVec 6 := w.extractLsb' 50 6

/-- ORD = w[49:48] (R69). -/
def fieldOrd (w : CmdWord) : BitVec 2 := w.extractLsb' 48 2

/-- IDX = w[47:32] (R68). -/
def fieldIdx (w : CmdWord) : BitVec 16 := w.extractLsb' 32 16

/-- DATA = w[31:0] (R66). -/
def fieldData (w : CmdWord) : BitVec 32 := w.extractLsb' 0 32

/-- The colour in format HSV (R70): H = DATA[23:16], S = DATA[15:8], V = DATA[7:0]. -/
def hsvOfData (d : BitVec 32) : Hsv := ⟨d.extractLsb' 16 8, d.extractLsb' 8 8, d.extractLsb' 0 8⟩

/-- VAL = DATA[7:0] in format VAL8 (R71). -/
def valOfData (d : BitVec 32) : BitVec 8 := d.extractLsb' 0 8

/-! ## The opcode map (R75) -/

/-- The OP byte of each command (R75). -/
def Opcode.byte : Opcode → BitVec 8
  | .setColor => 0x01
  | .getColor => 0x02
  | .setChannel => 0x03
  | .scaleChannel => 0x04
  | .fill => 0x05
  | .fillFrom => 0x06
  | .initTarget => 0x07
  | .enable => 0x08
  | .isReady => 0x09
  | .requestUpdate => 0x0A

/-- The assigned opcodes, in the order of R75. -/
def Opcode.all : List Opcode :=
  [.setColor, .getColor, .setChannel, .scaleChannel, .fill, .fillFrom, .initTarget, .enable, .isReady, .requestUpdate]

/-- The command an OP byte selects; none for 0x00 and 0x0B to 0xFF (R67, R78). -/
def Opcode.ofByte (b : BitVec 8) : Option Opcode := Opcode.all.find? fun o => o.byte == b

/-- The format column of R75. -/
def Opcode.format : Opcode → Format
  | .setColor => .hsv
  | .getColor => .none
  | .setChannel => .val8
  | .scaleChannel => .val8
  | .fill => .hsv
  | .fillFrom => .none
  | .initTarget => .tgt
  | .enable => .none
  | .isReady => .none
  | .requestUpdate => .none

/-- The "IDX used" column of R75. -/
def Opcode.usesIdx : Opcode → Bool
  | .setColor => true
  | .getColor => true
  | .setChannel => true
  | .scaleChannel => true
  | .fill => false
  | .fillFrom => false
  | .initTarget => false
  | .enable => false
  | .isReady => false
  | .requestUpdate => false

/-- The "ORD used" column of R75. -/
def Opcode.usesOrd : Opcode → Bool
  | .setColor => false
  | .getColor => false
  | .setChannel => false
  | .scaleChannel => false
  | .fill => false
  | .fillFrom => false
  | .initTarget => false
  | .enable => false
  | .isReady => false
  | .requestUpdate => true

/-- Whether DATA's reserved bits are 0 in a format (R70 to R73). -/
def Format.dataLegal : Format → BitVec 32 → Bool
  | .hsv, d => d.extractLsb' 24 8 == 0
  | .val8, d => d.extractLsb' 8 24 == 0
  | .tgt, _ => true
  | .none, d => d == 0

/-! ## Decoding -/

/-- Why a command word is illegal: one name for each check of R77, in its order. -/
inductive Reject where
  /-- OP is 0x00 or above 0x0A (R78). -/
  | unassignedOpcode
  /-- RSV is not 0 (R79). -/
  | reservedField
  /-- ORD is not 0 outside REQUESTUPDATE (R79). -/
  | unusedOrder
  /-- IDX is not 0 in a command that does not use it (R79). -/
  | unusedIndex
  /-- DATA has a non-zero bit its format reserves (R79). -/
  | reservedData
  deriving DecidableEq, Repr

/-- The command an accepted word stands for, its fields read as R66 and R70 to R74 place them. -/
def buildInstr (op : Opcode) (w : CmdWord) (data : List CmdWord) : Instr :=
  match op with
  | .setColor => .setColor (fieldIdx w) (hsvOfData (fieldData w))
  | .getColor => .getColor (fieldIdx w)
  | .setChannel => .setChannel (fieldIdx w) (valOfData (fieldData w))
  | .scaleChannel => .scaleChannel (fieldIdx w) (valOfData (fieldData w))
  | .fill => .fill (hsvOfData (fieldData w))
  | .fillFrom => .fillFrom data
  | .initTarget => .initTarget (fieldData w)
  | .enable => .enable
  | .isReady => .isReady
  | .requestUpdate => .requestUpdate (fieldOrd w)

/-- The decode of a command word (R77), its checks in R77's order. `data` is what stands in the
data position if the word is a FILLFROM (R82). -/
def decodeWord (w : CmdWord) (data : List CmdWord) : Except Reject Instr :=
  match Opcode.ofByte (fieldOp w) with
  | none => .error .unassignedOpcode
  | some op =>
    if fieldRsv w ≠ 0 then .error .reservedField
    else if op.usesOrd = false ∧ fieldOrd w ≠ 0 then .error .unusedOrder
    else if op.usesIdx = false ∧ fieldIdx w ≠ 0 then .error .unusedIndex
    else if op.format.dataLegal (fieldData w) = false then .error .reservedData
    else .ok (buildInstr op w data)

/-- How many data words follow a command word: N after FILLFROM, told from OP alone, else none (R65, R82). -/
def dataWordCount (n : Nat) (w : CmdWord) : Nat :=
  if fieldOp w = Opcode.byte .fillFrom then n else 0

/-- What the head of a host stream holds for the CMD agent (R44). -/
inductive Fetched where
  /-- The stream is exhausted. -/
  | noWord
  /-- A word with OP = 0x06 whose N data words have not all been supplied (R82, R85). -/
  | awaitingData
  /-- A word R77 rejects, and the words after it and its data words. -/
  | illegal (w : CmdWord) (why : Reject) (rest : List CmdWord)
  /-- A command, and the words after it and its data words. -/
  | command (i : Instr) (rest : List CmdWord)
  deriving DecidableEq, Repr

/-- The head of a host stream, decoded for a block of N = `n` LEDs: total on any words (R44, R77, R82, R85).
How many words a command takes is told from OP alone (R82), for a word R77 rejects as well (log entry 6). -/
def decode (n : Nat) : List CmdWord → Fetched
  | [] => .noWord
  | w :: ws =>
    if ws.length < dataWordCount n w then .awaitingData
    else
      match decodeWord w (ws.take n) with
      | .error why => .illegal w why (ws.drop (dataWordCount n w))
      | .ok i => .command i (ws.drop (dataWordCount n w))

/-! ## Encoding -/

/-- A command word from its fields, RSV zero (R66). -/
def packFields (op : Opcode) (ord : BitVec 2) (idx : BitVec 16) (data : BitVec 32) : CmdWord :=
  op.byte ++ (0 : BitVec 6) ++ ord ++ idx ++ data

/-- DATA in format HSV (R70). -/
def dataOfHsv (c : Hsv) : BitVec 32 := (0 : BitVec 8) ++ c.h ++ c.s ++ c.v

/-- DATA in format VAL8 (R71). -/
def dataOfVal (v : BitVec 8) : BitVec 32 := (0 : BitVec 24) ++ v

/-- The command word of a command (R66, R70 to R75). -/
def encodeWord : Instr → CmdWord
  | .setColor idx c => packFields .setColor 0 idx (dataOfHsv c)
  | .getColor idx => packFields .getColor 0 idx 0
  | .setChannel idx v => packFields .setChannel 0 idx (dataOfVal v)
  | .scaleChannel idx pct => packFields .scaleChannel 0 idx (dataOfVal pct)
  | .fill c => packFields .fill 0 0 (dataOfHsv c)
  | .fillFrom _ => packFields .fillFrom 0 0 0
  | .initTarget t => packFields .initTarget 0 0 t
  | .enable => packFields .enable 0 0 0
  | .isReady => packFields .isReady 0 0 0
  | .requestUpdate ord => packFields .requestUpdate ord 0 0

/-- The data words of a command: FILLFROM's, and no other command has any (R65). -/
def dataWords : Instr → List CmdWord
  | .setColor _ _ => []
  | .getColor _ => []
  | .setChannel _ _ => []
  | .scaleChannel _ _ => []
  | .fill _ => []
  | .fillFrom data => data
  | .initTarget _ => []
  | .enable => []
  | .isReady => []
  | .requestUpdate _ => []

/-- The words of a command, as the host writes them to CMDIN. -/
def encode (i : Instr) : List CmdWord := encodeWord i :: dataWords i

/-- The opcode of a command (R75). -/
def Instr.opcode : Instr → Opcode
  | .setColor _ _ => .setColor
  | .getColor _ => .getColor
  | .setChannel _ _ => .setChannel
  | .scaleChannel _ _ => .scaleChannel
  | .fill _ => .fill
  | .fillFrom _ => .fillFrom
  | .initTarget _ => .initTarget
  | .enable => .enable
  | .isReady => .isReady
  | .requestUpdate _ => .requestUpdate

/-! ## FILLFROM data words (R74) -/

/-- A data word is good when bits 63:24 are 0 (R74, R93). -/
def dataWordOk (d : CmdWord) : Bool := d.extractLsb' 24 40 == 0

/-- The colour of a data word (R74, R93). -/
def hsvOfDataWord (d : CmdWord) : Hsv := hsvOfData (fieldData d)

/-- The data word of a colour (R74). -/
def dataWordOfHsv (c : Hsv) : CmdWord := (0 : BitVec 32) ++ dataOfHsv c

/-! ## The match and mask table (R76) -/

/-- A row of R76: a word selects the command when `w AND mask = pattern`. -/
structure MaskRow where
  op : Opcode
  pattern : CmdWord
  mask : CmdWord
  deriving DecidableEq, Repr

/-- The command rows of R76. -/
def maskTable : List MaskRow :=
  [ ⟨.setColor, 0x0100000000000000, 0xFFFF0000FF000000⟩,
    ⟨.getColor, 0x0200000000000000, 0xFFFF0000FFFFFFFF⟩,
    ⟨.setChannel, 0x0300000000000000, 0xFFFF0000FFFFFF00⟩,
    ⟨.scaleChannel, 0x0400000000000000, 0xFFFF0000FFFFFF00⟩,
    ⟨.fill, 0x0500000000000000, 0xFFFFFFFFFF000000⟩,
    ⟨.fillFrom, 0x0600000000000000, 0xFFFFFFFFFFFFFFFF⟩,
    ⟨.initTarget, 0x0700000000000000, 0xFFFFFFFF00000000⟩,
    ⟨.enable, 0x0800000000000000, 0xFFFFFFFFFFFFFFFF⟩,
    ⟨.isReady, 0x0900000000000000, 0xFFFFFFFFFFFFFFFF⟩,
    ⟨.requestUpdate, 0x0A00000000000000, 0xFFFCFFFFFFFFFFFF⟩ ]

/-- Whether a word selects a row of R76. -/
def MaskRow.selects (r : MaskRow) (w : CmdWord) : Bool := w &&& r.mask == r.pattern

/-! ## Words numbered as spec/opcode_table.json numbers them -/

/-- Word `k` of an instruction whose bits, numbered from the first word's least significant bit, are `w`;
bits from `nbits` on are 0. -/
def tableWord (nbits w k : Nat) : CmdWord := BitVec.ofNat 64 (w % 2 ^ nbits / 2 ^ (64 * k))

/-- Words `k` to `k + count - 1` of such an instruction. -/
def tableWordsFrom (nbits w k : Nat) : Nat → List CmdWord
  | 0 => []
  | count + 1 => tableWord nbits w k :: tableWordsFrom nbits w (k + 1) count

/-- The words of such an instruction for a block of `n` LEDs: its command word, and N data words if OP
says FILLFROM (R82). -/
def tableWords (n nbits w : Nat) : List CmdWord :=
  tableWord nbits w 0 :: tableWordsFrom nbits w 1 (dataWordCount n (tableWord nbits w 0))

/-- The instruction the decoder reads from an instruction whose bits are `w`, for the launched configuration. -/
def decodeTableWord (nbits w : Nat) : Option Instr :=
  match decode Config.launch.ledCapacity (tableWords Config.launch.ledCapacity nbits w) with
  | .command i _ => some i
  | .noWord => none
  | .awaitingData => none
  | .illegal _ _ _ => none

end Sys2Proof
end

