-- ==== Sys2Proof/Machine/State.lean ====
section
/-! DEFINITION. The state of the block and of its surroundings as the model holds them, as plain data (10_state.md),
the reasons a step can stop, and the state after reset (R41). -/

namespace Sys2Proof.Machine

/-- A store of the block, COLOR or TBUF: pairs of an element index and a value, element by element because the
block stores nothing in bytes (R45, R49). Indices rise strictly, and no listed value is the zero value an
unlisted index reads as (R23, R24); `Memory.wf` says so. -/
abbrev Memory (α : Type) := List (Nat × α)

/-- How a frame of WIRE stands (R33, R148). -/
inductive FrameStatus where
  /-- Opened by START; DMA_EMIT appends to it (R33, R117). -/
  | inFlight
  /-- Closed by DMA_COMPLETE (R134). -/
  | closed
  /-- Closed by a reset during its transfer (R148). -/
  | truncated
  deriving DecidableEq, Repr

/-- One frame of WIRE, its codes in the order emitted (R33). -/
structure Frame where
  codes : List PulseCode
  status : FrameStatus
  deriving DecidableEq, Repr

/-- A step of one agent (R17), or an act of the host between two steps (R21, R143). -/
inductive Move where
  /-- The CMD agent takes a step. -/
  | cmd
  /-- The DMA agent takes a step. -/
  | dma
  /-- The host writes one more word to CMDIN (R21, R44). -/
  | supply (w : CmdWord)
  /-- The host resets the block; WIRE is kept for observation or not, if a transfer is in flight (R146, R148). -/
  | reset (keepWire : Bool)
  /-- No agent moves: the backend stalls (R135) or the block waits (R142). -/
  | hold
  deriving DecidableEq, Repr

/-- What the host's stream holds after the words already written to CMDIN: it is finite or infinite (R44, log entry 19). -/
inductive HostTail where
  /-- Nothing: the stream ends with the words written, and those of listed `supply` moves. -/
  | ended
  /-- The words `w :: ws` again and again, without end. -/
  | cycle (w : CmdWord) (ws : List CmdWord)
  /-- Words without end that nothing fixes: free values. -/
  | free
  deriving DecidableEq, Repr

/-- The fault codes of R120. -/
inductive Cause where
  | illegalCommand
  | indexRange
  | initWhileBusy
  | badDataWord
  deriving DecidableEq, Repr

/-- The architectural state, the observation WIRE, and the inputs the step reads. -/
structure State where
  /-- N, CODE_BITS, ONE_CODE, ZERO_CODE, hsvToRgb and DMA_FAIR: configuration, written by no step (R42). -/
  config : Config
  /-- COLOR[0..N-1] (R23). -/
  color : Memory Hsv
  /-- TBUF[0..L-1] (R24). -/
  tbuf : Memory PulseCode
  /-- TARGET (R25). -/
  target : Target
  /-- CFG (R26). -/
  cfg : Bool
  /-- INIT (R27). -/
  init : Bool
  /-- BUSY (R28). -/
  busy : Bool
  /-- RESULT (R29). -/
  result : ReadWord
  /-- FAULT (R30). -/
  fault : Bool
  /-- FCAUSE (R30). -/
  fcause : BitVec 8
  /-- FCMD (R30). -/
  fcmd : CmdWord
  /-- DMA_ACTIVE (R31). -/
  dmaActive : Bool
  /-- DMA_POS (R32). -/
  dmaPos : Nat
  /-- WIRE, oldest frame first (R33): the observation of the output line. -/
  wire : List Frame
  /-- INPUT: the words the host has written to CMDIN and the CMD agent has not yet consumed (R21, R44). -/
  host : List CmdWord
  /-- INPUT: the words the host has still to write, after those in `host` (R44, log entry 19). -/
  hostTail : HostTail
  /-- INPUT, the model's own: which moves come next, in order; empty where nothing fixes them (R54, log entry 3). -/
  moves : List Move
  /-- INPUT, the model's own: the outcomes of the next drawn hardwareInitialize calls (R132, log entry 4). -/
  draws : List Bool
  /-- The model's own: how many more moves of others a fair DMA agent waits at most; none where that is not drawn yet
  (R136, log entry 3). -/
  dmaWait : Option Nat
  /-- The model's own: the number of free values used so far (log entry 5). -/
  freeCount : Nat
  deriving DecidableEq, Repr

/-- Why the machine stops: the chosen agent is stuck (R16). The block's own faults are no stop: they are
recorded in FAULT, FCAUSE and FCMD, and the step answers next (R123). Every stop is safe. -/
inductive Fault where
  /-- CMD was to move and FAULT = 1: the agent takes no further command word (R124). Raised by cmdStep. Safe. -/
  | cmdHalted
  /-- CMD was to move and the host stream is exhausted (R44, R144; log entry 11). Raised by cmdStep. Safe. -/
  | noCommandWord
  /-- CMD was to move and a word with OP = 0x06 still waits for its data words (R82, R85). Raised by cmdStep. Safe. -/
  | awaitingDataWords
  /-- DMA was to move and neither DMA_EMIT nor DMA_COMPLETE is enabled (R133, R134). Raised by dmaStep. Safe. -/
  | dmaNotEnabled
  deriving DecidableEq, Repr

/-- What the model gives no meaning. -/
inductive Refusal where
  /-- An instruction without a meaning yet: raised by exec's arm. No arm of this model raises it. Safe. -/
  | notModelled (mnemonic : String)
  /-- A FILLFROM term whose data list is not N long, refused at the model boundary (R16, R93; V5). Raised by
  execFillFrom; no decoded command raises it. Safe. -/
  | fillFromLength
  deriving DecidableEq, Repr

/-- The block with configuration `c` right after reset (R41, R146): no host word and no move yet, and no free
value used (log entries 3 to 5, 8, 19). -/
def State.resetWith (c : Config) : State :=
  { config := c
    color := []
    tbuf := []
    target := targetNone
    cfg := false
    init := false
    busy := false
    result := 0
    fault := false
    fcause := 0
    fcmd := 0
    dmaActive := false
    dmaPos := 0
    wire := []
    host := []
    hostTail := .ended
    moves := []
    draws := []
    dmaWait := none
    freeCount := 0 }

/-- The machine right after reset, in the launched configuration (R41, log entry 1). -/
def State.reset : State := State.resetWith Config.launch

end Sys2Proof.Machine
end

