-- ==== Sys2Proof/Machine/Ops.lean ====
section
/-! DEFINITION. The operations the meanings share: reading and writing the two stores, taking a fault and the reset
that alone clears one, the observation WIRE, and the START handoff. -/

namespace Sys2Proof.Machine

/-! ## A store (R45), `z` being what an unlisted index reads as -/

/-- The element at an index. -/
def Memory.read {α : Type} (z : α) : Memory α → Nat → α
  | [], _ => z
  | (k, x) :: rest, a => if k = a then x else Memory.read z rest a

/-- The store without any entry at `a`. -/
def Memory.erase {α : Type} (a : Nat) : Memory α → Memory α
  | [] => []
  | (k, x) :: rest => if k = a then Memory.erase a rest else (k, x) :: Memory.erase a rest

/-- The store with an entry put before the first higher index. -/
def Memory.insert {α : Type} (a : Nat) (v : α) : Memory α → Memory α
  | [] => [(a, v)]
  | (k, x) :: rest => if a < k then (a, v) :: (k, x) :: rest else (k, x) :: Memory.insert a v rest

/-- The write of one element; writing `z` leaves no entry. -/
def Memory.write {α : Type} [DecidableEq α] (z : α) (m : Memory α) (a : Nat) (v : α) : Memory α :=
  if v = z then Memory.erase a m else Memory.insert a v (Memory.erase a m)

/-- `for k in 0 .. count-1: M[base + k] <- f k`, in that order. -/
def Memory.writeRange {α : Type} [DecidableEq α] (z : α) (m : Memory α) (base : Nat) (f : Nat → α) : Nat → Memory α
  | 0 => m
  | count + 1 => Memory.write z (Memory.writeRange z m base f count) (base + count) (f count)

/-- No listed index is below `low`, indices rise strictly, and no listed value is `z`. -/
def Memory.wfFrom {α : Type} [DecidableEq α] (z : α) : Nat → Memory α → Bool
  | _, [] => true
  | low, (k, x) :: rest => decide (low ≤ k) && decide (x ≠ z) && Memory.wfFrom z (k + 1) rest

/-- The canonical form of a store: equal contents are equal data. -/
def Memory.wf {α : Type} [DecidableEq α] (z : α) (m : Memory α) : Bool := Memory.wfFrom z 0 m

/-- Every listed index exists in a store of `n` elements. -/
def Memory.within {α : Type} (n : Nat) (m : Memory α) : Bool := m.all fun e => decide (e.1 < n)

/-- COLOR[i] (R23); a colour the store does not list is (0, 0, 0). -/
def State.colorAt (s : State) (i : Nat) : Hsv := Memory.read Hsv.black s.color i

/-- COLOR[i] <- c (R15, R46). -/
def State.writeColor (s : State) (i : Nat) (c : Hsv) : State :=
  { s with color := Memory.write Hsv.black s.color i c }

/-- `for i in 0 .. N-1: COLOR[i] <- f i` (R92, R93, R111). -/
def State.writeColors (s : State) (f : Nat → Hsv) : State :=
  { s with color := Memory.writeRange Hsv.black s.color 0 f s.config.ledCapacity }

/-- TBUF[j] (R24); a slot the store does not list is the number 0. -/
def State.slotAt (s : State) (j : Nat) : PulseCode := Memory.read 0 s.tbuf j

/-- `for j in 0 .. L-1: TBUF[j] <- 0`, the number and not ZERO_CODE (R108, D33). -/
def State.zeroFillTbuf (s : State) : State :=
  { s with tbuf := Memory.writeRange 0 s.tbuf 0 (fun _ => 0) s.config.bufferLength }

/-! ## Taking a fault, and the one way out of it -/

/-- The FCAUSE value of a fault (R120). -/
def Cause.code : Cause → BitVec 8
  | .illegalCommand => 0x01
  | .indexRange => 0x02
  | .initWhileBusy => 0x03
  | .badDataWord => 0x04

/-- Fault entry, `raise Fault(code)`: the three fault registers and nothing else (R123). -/
def raiseFault (cause : Cause) (w : CmdWord) (s : State) : State :=
  { s with fault := true, fcause := cause.code, fcmd := w }

/-- A frame at a reset: an open one is closed and marked truncated (R148). -/
def Frame.truncate (f : Frame) : Frame :=
  match f.status with
  | .inFlight => { f with status := .truncated }
  | .closed => f
  | .truncated => f

/-- Reset of a running block: every state element at its value of R41, the only return from a fault
(R125, R146). WIRE is emptied, but for a reset while DMA_ACTIVE = 1 across which the observer keeps it, its open frame
truncated (R148). The configuration and the inputs that belong to the host stay (DESIGN CHOICE, log entry 7). -/
def resetBlock (keepWire : Bool) (s : State) : State :=
  { State.resetWith s.config with
    wire := if keepWire && s.dmaActive then s.wire.map Frame.truncate else []
    host := s.host
    hostTail := s.hostTail
    moves := s.moves
    draws := s.draws
    freeCount := s.freeCount }

/-! ## The observation WIRE (R33) -/

/-- `emit(x)`: the open frame gets one more code (R15). -/
def Frame.emit (x : PulseCode) (f : Frame) : Frame :=
  match f.status with
  | .inFlight => { f with codes := f.codes ++ [x] }
  | .closed => f
  | .truncated => f

/-- The open frame is closed (R134). -/
def Frame.close (f : Frame) : Frame :=
  match f.status with
  | .inFlight => { f with status := .closed }
  | .closed => f
  | .truncated => f

/-- A frame is complete when it is closed with exactly L codes (R33). DESIGN CHOICE (log entry 18): closed by DMA_COMPLETE,
so a frame a reset cut at DMA_POS = L, marked truncated with L codes (R148), is not complete. -/
def Frame.complete (length : Nat) (f : Frame) : Bool := f.status == .closed && f.codes.length == length

/-! ## The handoff -/

/-- START() (R117): BUSY, DMA_ACTIVE, DMA_POS, and a new open frame on WIRE. -/
def startTransfer (s : State) : State :=
  { s with busy := true, dmaActive := true, dmaPos := 0, wire := s.wire ++ [⟨[], .inFlight⟩] }

end Sys2Proof.Machine
end

