-- ==== Sys2Proof/Machine/Operands.lean ====
section
/-! DEFINITION. Operand checks and operand arithmetic of the commands: the index check, the scaled channel, RESULT's
colour format and FILLFROM's data words. -/

namespace Sys2Proof.Machine

/-- The index check of R87: IDX < N. -/
def indexOk (s : State) (idx : BitVec 16) : Bool := decide (idx.toNat < s.config.ledCapacity)

/-- The new v of SCALECHANNEL (R91): the exact product, divided by 100 with truncation, modulo 256. -/
def scaledChannel (v : Channel) (pct : BitVec 8) : Channel := BitVec.ofNat 8 (v.toNat * pct.toNat / 100)

/-- GETCOLOR's RESULT: 0x00, h, s, v from the top (R89). -/
def resultOfColor (c : Hsv) : ReadWord := dataOfHsv c

/-- The first data word with a non-zero bit in 63:24 (R93, R122). -/
def firstBadDataWord (data : List CmdWord) : Option CmdWord := data.find? fun d => !dataWordOk d

/-- The colour data word `k` carries (R74); the list is N long where this is used. -/
def dataColor (data : List CmdWord) (k : Nat) : Hsv := hsvOfDataWord (data.getD k 0)

end Sys2Proof.Machine
end

