-- ==== Sys2Proof/Machine/ColorStore.lean ====
section
/-! DEFINITION. The six ColorStore commands (40_colorstore.md). Each is the effect of a command already taken and
decoded; a fault takes its entry of R123. -/

namespace Sys2Proof.Machine

/-- SETCOLOR idx, h, s, v (R87, R88). -/
def execSetColor (idx : BitVec 16) (c : Hsv) (s : State) : Host.Outcome State Fault Refusal :=
  if indexOk s idx then .next (s.writeColor idx.toNat c)
  else .next (raiseFault .indexRange (encodeWord (.setColor idx c)) s)

/-- GETCOLOR idx (R87, R89). -/
def execGetColor (idx : BitVec 16) (s : State) : Host.Outcome State Fault Refusal :=
  if indexOk s idx then .next { s with result := resultOfColor (s.colorAt idx.toNat) }
  else .next (raiseFault .indexRange (encodeWord (.getColor idx)) s)

/-- SETCHANNEL idx, v: only the value channel (R87, R90). -/
def execSetChannel (idx : BitVec 16) (v : Channel) (s : State) : Host.Outcome State Fault Refusal :=
  if indexOk s idx then .next (s.writeColor idx.toNat { s.colorAt idx.toNat with v := v })
  else .next (raiseFault .indexRange (encodeWord (.setChannel idx v)) s)

/-- SCALECHANNEL idx, pct: the value channel scaled, without clamping (R87, R91). -/
def execScaleChannel (idx : BitVec 16) (pct : BitVec 8) (s : State) : Host.Outcome State Fault Refusal :=
  if indexOk s idx then
    .next (s.writeColor idx.toNat
      { s.colorAt idx.toNat with v := scaledChannel (s.colorAt idx.toNat).v pct })
  else .next (raiseFault .indexRange (encodeWord (.scaleChannel idx pct)) s)

/-- FILL h, s, v (R92). -/
def execFill (c : Hsv) (s : State) : Host.Outcome State Fault Refusal :=
  .next (s.writeColors fun _ => c)

/-- FILLFROM (R93): every data word is checked before any colour is written. A term whose list is not N
long is refused (R16). -/
def execFillFrom (data : List CmdWord) (s : State) : Host.Outcome State Fault Refusal :=
  if data.length = s.config.ledCapacity then
    match firstBadDataWord data with
    | some d => .next (raiseFault .badDataWord d s)
    | none => .next (s.writeColors (dataColor data))
  else .refused .fillFromLength

end Sys2Proof.Machine
end

