-- ==== Sys2Proof/Machine/Encoder.lean ====
section
/-! DEFINITION. The BitEncoder (41_encoder.md): colour conversion, packing, and the serializer into pulse codes. Its
operations have no command encoding (R86). -/

namespace Sys2Proof.Machine

/-- hsvToRgb (R11, R95): law (c) for BLACK, then the values the configuration names, then the free value. -/
def hsvToRgb (c : Config) (x : Hsv) : Rgb :=
  if x = Hsv.black then Rgb.zero
  else
    match c.hsvKnown.find? (fun e => e.1 == x) with
    | some e => e.2
    | none => Config.freeRgb x

/-- PACK (R96, R97): RGB for ORD = 0b01, and GRB for every other ORD (R69). -/
def pack (ord : BitVec 2) (x : Rgb) : BitVec 24 :=
  if ord = 0b01 then x.r ++ x.g ++ x.b else x.g ++ x.r ++ x.b

/-- The code of one bit (R99). -/
def codeOf (c : Config) (bit : Bool) : PulseCode := if bit then c.oneCode else c.zeroCode

/-- ENCODELED (R98): slot 24*i + k receives the code of bit 23 - k of the packed word. -/
def encodeLed (c : Config) (ord : BitVec 2) (x : Rgb) (i : Nat) (tbuf : Memory PulseCode) : Memory PulseCode :=
  Memory.writeRange 0 tbuf (bitsPerLed * i) (fun k => codeOf c ((pack ord x).getLsbD (23 - k))) bitsPerLed

/-- ENCODELED for LEDs 0 to `count - 1` in ascending order, each colour converted as the pass reads it (R95, R102). -/
def encodeLeds (c : Config) (ord : BitVec 2) (color : Memory Hsv) (tbuf : Memory PulseCode) : Nat → Memory PulseCode
  | 0 => tbuf
  | i + 1 =>
    encodeLed c ord (hsvToRgb c (Memory.read Hsv.black color i)) i (encodeLeds c ord color tbuf i)

/-- The encode pass ENCODE(ord) (R102): every LED, one order, all L slots. -/
def encodePass (ord : BitVec 2) (s : State) : State :=
  { s with tbuf := encodeLeds s.config ord s.color s.tbuf s.config.ledCapacity }

end Sys2Proof.Machine
end

