-- ==== Sys2Proof/Machine/Flags.lean ====
section
/-! DEFINITION. What the flags say: READY, the controller state, the STATUS view and what the host can see. The block
has no condition codes (R39). -/

namespace Sys2Proof.Machine

/-- READY: INIT and not BUSY (R34, R113). -/
def State.ready (s : State) : Bool := s.init && !s.busy

/-- A flag as a RESULT value, 0 or 1 (R29). -/
def resultOfBool (b : Bool) : ReadWord := if b then 1 else 0

/-- STATUS, the read-only view of R34, from bit 31 down to bit 0. -/
def State.statusWord (s : State) : ReadWord :=
  (0 : BitVec 16) ++ s.fcause ++ (0 : BitVec 2) ++ BitVec.ofBool s.dmaActive ++ BitVec.ofBool s.fault ++
    BitVec.ofBool s.ready ++ BitVec.ofBool s.busy ++ BitVec.ofBool s.init ++ BitVec.ofBool s.cfg

/-- The controller states (R35). -/
inductive ControllerState where
  | uninit | configured | idle | busy
  deriving DecidableEq, Repr

/-- The controller state as a function of CFG, INIT and BUSY (R35); none for the combinations R37 rules out. -/
def State.controller (s : State) : Option ControllerState :=
  match s.cfg, s.init, s.busy with
  | false, false, false => some .uninit
  | true, false, false => some .configured
  | true, true, false => some .idle
  | true, true, true => some .busy
  | false, true, _ => none
  | false, false, true => none
  | true, false, true => none

/-- All that a host can read at any time, without effect: RESULT and STATUS (R20, R53, R145). -/
def State.hostView (s : State) : ReadWord × ReadWord := (s.result, s.statusWord)

/-- The state elements by the numbers of R40. -/
inductive StateElement where
  | color | tbuf | target | cfg | init | busy | result | fault | fcause | fcmd | dmaActive | dmaPos | status
  deriving DecidableEq, Repr

/-- The SR number of a state element (R40). -/
def StateElement.number : StateElement → Nat
  | .color => 0
  | .tbuf => 1
  | .target => 2
  | .cfg => 3
  | .init => 4
  | .busy => 5
  | .result => 6
  | .fault => 7
  | .fcause => 8
  | .fcmd => 9
  | .dmaActive => 10
  | .dmaPos => 11
  | .status => 12

end Sys2Proof.Machine
end

