-- ==== Sys2Proof/Machine/Controller.lean ====
section
/-! DEFINITION. The four TransferController commands (42_controller.md). -/

namespace Sys2Proof.Machine

/-- `hardwareInitialize(TARGET)` (R132): false for TARGET_NONE without a draw; else the next listed outcome,
or a free value. The call changes no state of the block, only the model's record of its draws. -/
def hardwareInitialize (s : State) : Bool × State :=
  if s.target = targetNone then (false, s)
  else
    match s.draws with
    | ok :: rest => (ok, { s with draws := rest })
    | [] => (Config.freeDraw s.freeCount, { s with freeCount := s.freeCount + 1 })

/-- INITIALIZE target (R108); a fault while BUSY, before anything is written (R109). INIT is kept. -/
def execInitTarget (target : Target) (s : State) : Host.Outcome State Fault Refusal :=
  if s.busy then .next (raiseFault .initWhileBusy (encodeWord (.initTarget target)) s)
  else .next { s.zeroFillTbuf with target := target, cfg := true }

/-- ENABLE's success path: black fill, the ungated pass in order RGB, INIT, START, RESULT (R111). -/
def enableSucceeded (s : State) : State :=
  { startTransfer { encodePass 0b01 (s.writeColors fun _ => Hsv.black) with init := true } with result := 1 }

/-- ENABLE: idempotent once INIT = 1 (R110); else the drawn initialization succeeds (R111) or fails (R112). -/
def execEnable (s : State) : Host.Outcome State Fault Refusal :=
  if s.init then .next { s with result := 1 }
  else
    match hardwareInitialize s with
    | (true, s') => .next (enableSucceeded s')
    | (false, s') => .next { s' with result := 0 }

/-- ISREADY (R113). -/
def execIsReady (s : State) : Host.Outcome State Fault Refusal :=
  .next { s with result := resultOfBool s.ready }

/-- REQUESTUPDATE ord: dropped without a trace when INIT = 0 or BUSY = 1 (R114, R116), else the pass and
START (R115). -/
def execRequestUpdate (ord : BitVec 2) (s : State) : Host.Outcome State Fault Refusal :=
  if s.ready then .next (startTransfer (encodePass ord s)) else .next s

end Sys2Proof.Machine
end

