-- ==== Sys2Proof/Machine/Dispatch.lean ====
section
/-! DEFINITION. The meaning of each command: one arm per constructor of Instr. -/

namespace Sys2Proof.Machine

-- The effect of a command the CMD agent has taken (R52: one atomic step).
def exec (i : Instr) (s : State) : Host.Outcome State Fault Refusal :=
  match i with
  | .setColor idx c => Sys2Proof.Machine.execSetColor idx c s
  | .getColor idx => Sys2Proof.Machine.execGetColor idx s
  | .setChannel idx v => Sys2Proof.Machine.execSetChannel idx v s
  | .scaleChannel idx pct => Sys2Proof.Machine.execScaleChannel idx pct s
  | .fill c => Sys2Proof.Machine.execFill c s
  | .fillFrom data => Sys2Proof.Machine.execFillFrom data s
  | .initTarget target => Sys2Proof.Machine.execInitTarget target s
  | .enable => Sys2Proof.Machine.execEnable s
  | .isReady => Sys2Proof.Machine.execIsReady s
  | .requestUpdate ord => Sys2Proof.Machine.execRequestUpdate ord s

end Sys2Proof.Machine
end

