-- ==== Sys2Proof/Machine/Dma.lean ====
section
/-! DEFINITION. The DMA agent (60_exceptions.md): DMA_EMIT and DMA_COMPLETE. Neither reads FAULT (R124, R133). -/

namespace Sys2Proof.Machine

/-- DMA_EMIT (R133). -/
def dmaEmit (s : State) : State :=
  { s with wire := s.wire.map (Frame.emit (s.slotAt s.dmaPos)), dmaPos := s.dmaPos + 1 }

/-- DMA_COMPLETE (R134), the completion signal (R128). -/
def dmaComplete (s : State) : State :=
  { s with wire := s.wire.map Frame.close, dmaActive := false, dmaPos := 0, busy := false }

/-- Whether DMA_EMIT or DMA_COMPLETE is enabled (R133, R134). -/
def dmaEnabled (s : State) : Bool := s.dmaActive && decide (s.dmaPos ≤ s.config.bufferLength)

/-- A step of the DMA agent. -/
def dmaStep (s : State) : Host.Outcome State Fault Refusal :=
  if dmaEnabled s then
    if s.dmaPos < s.config.bufferLength then .next (dmaEmit s) else .next (dmaComplete s)
  else .fault .dmaNotEnabled

end Sys2Proof.Machine
end

