-- ==== Sys2Proof/Machine/Agents.lean ====
section
/-! DEFINITION. The two agents and the acts of the host, and which of them moves next (R17, R54, R130). -/

namespace Sys2Proof.Machine

/-- Whether the CMD agent has an enabled step: FAULT = 0 and a whole command, or an illegal word with
its data words, at the head of the stream (R44, R82, R85, R124). -/
def cmdEnabled (s : State) : Bool :=
  !s.fault &&
    match decode s.config.ledCapacity s.host with
    | .noWord => false
    | .awaitingData => false
    | .illegal _ _ _ => true
    | .command _ _ => true

/-- A step of the CMD agent: take one command from the stream and execute it, atomically (R44, R52). An
illegal word is consumed, with its data words if OP says it has any, and faults with that word in FCMD (R77 to R79, R82). -/
def cmdStep (s : State) : Host.Outcome State Fault Refusal :=
  if s.fault then .fault .cmdHalted
  else
    match decode s.config.ledCapacity s.host with
    | .noWord => .fault .noCommandWord
    | .awaitingData => .fault .awaitingDataWords
    | .illegal w _ rest => .next (raiseFault .illegalCommand w { s with host := rest })
    | .command i rest => exec i { s with host := rest }

/-- One move: a step of an agent, or an act of the host (R21, R143, R146, R148). -/
def perform (m : Move) (s : State) : Host.Outcome State Fault Refusal :=
  match m with
  | .cmd => cmdStep s
  | .dma => dmaStep s
  | .supply w => .next { s with host := s.host ++ [w] }
  | .reset keepWire => .next (resetBlock keepWire s)
  | .hold => .next s

/-- The next word of what the host has still to write, and the rest (R44); `n` picks a free word. -/
def HostTail.pop (n : Nat) : HostTail → Option (CmdWord × HostTail)
  | .ended => none
  | .cycle w [] => some (w, .cycle w [])
  | .cycle w (v :: vs) => some (w, .cycle v (vs ++ [w]))
  | .free => some (Config.freeWord n, .free)

/-- What CMD's side of the interleaving can do by itself, with the state it does it in: a step of CMD, or, where the CMD agent
lacks a word, the host's write of the next one (R44, R85); none where neither is possible. -/
def freeCmdMove (s : State) : Option (Move × State) :=
  if s.fault then none
  else
    match decode s.config.ledCapacity s.host with
    | .noWord | .awaitingData =>
      match s.hostTail.pop s.freeCount with
      | none => none
      | some (w, tail) => some (.supply w, { s with hostTail := tail })
    | .illegal _ _ _ | .command _ _ => some (.cmd, s)

/-- How many more moves of others the DMA agent waits at most, if it is fair (R136). -/
def dmaPatience (s : State) : Nat := s.dmaWait.getD (Config.freeWait s.freeCount)

/-- The move where the state lists none, and the state it is made in. The one side that can move does; with both a free choice
(R54, R130), which a fair DMA agent wins once it has waited its bound (R136); with only DMA enabled and no fairness assumed a
free choice of a stall (R135, R136); with neither, CMD, which stops (log entry 3). -/
def freeMove (s : State) : Move × State :=
  match dmaEnabled s, freeCmdMove s with
  | true, some (m, s') =>
    if s.config.dmaFair && dmaPatience s == 0 || !Config.freeTurn s.freeCount then (.dma, { s with dmaWait := none })
    else (m, { s' with dmaWait := some (dmaPatience s - 1) })
  | true, none =>
    if s.config.dmaFair || !Config.freeStall s.freeCount then (.dma, { s with dmaWait := none }) else (.hold, s)
  | false, some m => m
  | false, none => (.cmd, s)

/-- The next move of the machine and the state it is made in: the first listed move, else a free one. -/
def nextMove (s : State) : Move × State :=
  match s.moves with
  | m :: rest => (m, { s with moves := rest })
  | [] => ((freeMove s).1, { (freeMove s).2 with freeCount := s.freeCount + 1 })

/-- `s` with the words of an instruction, numbered as spec/opcode_table.json numbers them, at the head of the
host stream, and a move of the CMD agent next (log entry 8). -/
def placeTableWord (s : State) (nbits w : Nat) : State :=
  { s with host := tableWords s.config.ledCapacity nbits w ++ s.host, moves := .cmd :: s.moves }

end Sys2Proof.Machine
end

