-- ==== Sys2Proof/Machine/Step.lean ====
section
/-! DEFINITION. One step of the machine, and the state in which a given instruction is the next one run. -/

namespace Sys2Proof.Machine

/-- One step: one atomic step of one agent, or one act of the host (R17, R52, R54). -/
def step (s : State) : Host.Outcome State Fault Refusal := perform (nextMove s).1 (nextMove s).2

/-- The state in which the next step runs the instruction whose bits are `w` (log entry 8). -/
def State.withFetchWord (s : State) (nbits w : Nat) : State := placeTableWord s nbits w

end Sys2Proof.Machine
end

