-- ==== Sys2Proof/Machine/Assembler.lean ====
section
/-! DEFINITION. The assembler of R83 and R84: from the characters of a line to its operands, and from these to a command
and its words. It is no part of a step. -/

namespace Sys2Proof.Machine

/-! ## From characters to tokens -/

/-- A token of a line: a word of letters and digits, or one of the marks R83 uses. -/
inductive Token where
  | word (cs : List Char)
  | comma
  | openParen
  | closeParen
  | equals
  deriving DecidableEq, Repr

/-- The word read so far, ended. -/
def endWord (word : List Char) (rest : List Token) : List Token :=
  match word with
  | [] => rest
  | _ :: _ => .word word.reverse :: rest

/-- The tokens of a line, `word` holding the letters of an unfinished word in reverse; none at a character no line of
R83 holds. -/
def tokenize (word : List Char) : List Char → Option (List Token)
  | [] => some (endWord word [])
  | c :: cs =>
    if c.isAlphanum then tokenize (c :: word) cs
    else
      match tokenize [] cs with
      | none => none
      | some rest =>
        if c = ' ' then some (endWord word rest)
        else if c = ',' then some (endWord word (.comma :: rest))
        else if c = '(' then some (endWord word (.openParen :: rest))
        else if c = ')' then some (endWord word (.closeParen :: rest))
        else if c = '=' then some (endWord word (.equals :: rest))
        else none

/-! ## From tokens to numbers -/

/-- The value of a digit in base `base`, which is 10 or 16. -/
def digitValue (base : Nat) (c : Char) : Option Nat :=
  let v :=
    if '0' ≤ c ∧ c ≤ '9' then c.toNat - '0'.toNat
    else if 'a' ≤ c ∧ c ≤ 'f' then c.toNat - 'a'.toNat + 10
    else if 'A' ≤ c ∧ c ≤ 'F' then c.toNat - 'A'.toNat + 10
    else base
  if v < base then some v else none

/-- The value of digits in base `base`, after the value `acc` of those before them. -/
def digitsValue (base acc : Nat) : List Char → Option Nat
  | [] => some acc
  | c :: cs =>
    match digitValue base c with
    | none => none
    | some v => digitsValue base (base * acc + v) cs

/-- A number: decimal, or hexadecimal after 0x (R83). -/
def numberOfWord : List Char → Option Nat
  | '0' :: 'x' :: d :: ds => digitsValue 16 0 (d :: ds)
  | d :: ds => digitsValue 10 0 (d :: ds)
  | [] => none

/-- Numbers separated by commas, up to the end of the line (R83). -/
def numbers : List Token → Option (List Nat)
  | [.word cs] => (numberOfWord cs).map fun n => [n]
  | .word cs :: .comma :: rest =>
    match numberOfWord cs, numbers rest with
    | some n, some ns => some (n :: ns)
    | _, _ => none
  | _ => none

/-- Triples in parentheses separated by commas, up to the end of the line (R83). -/
def triples : List Token → Option (List (Nat × Nat × Nat))
  | .openParen :: .word h :: .comma :: .word s :: .comma :: .word v :: .closeParen :: rest =>
    match numberOfWord h, numberOfWord s, numberOfWord v with
    | some h, some s, some v =>
      match rest with
      | [] => some [(h, s, v)]
      | .comma :: more => (triples more).map fun ts => (h, s, v) :: ts
      | _ => none
    | _, _, _ => none
  | _ => none

/-- REQUESTUPDATE's operand (R83). -/
def orderOperand : List Token → Option AsmOrder
  | [.word cs] => if cs = "RGB".toList then some .rgb else if cs = "GRB".toList then some .grb else none
  | [.word cs, .equals, .word n] => if cs = "ORD".toList then (numberOfWord n).map .ord else none
  | _ => none

/-- A line from its mnemonic and the tokens after it; none where R83 and R84 have no such line. -/
def lineOfTokens (mnemonic : List Char) (operands : List Token) : Option AsmLine :=
  if mnemonic = "SETCOLOR".toList then
    match numbers operands with
    | some [idx, h, s, v] => some (.setColor idx h s v)
    | _ => none
  else if mnemonic = "GETCOLOR".toList then
    match numbers operands with
    | some [idx] => some (.getColor idx)
    | _ => none
  else if mnemonic = "SETCHANNEL".toList then
    match numbers operands with
    | some [idx, v] => some (.setChannel idx v)
    | _ => none
  else if mnemonic = "SCALECHANNEL".toList then
    match numbers operands with
    | some [idx, pct] => some (.scaleChannel idx pct)
    | _ => none
  else if mnemonic = "FILL".toList then
    match numbers operands with
    | some [h, s, v] => some (.fill h s v)
    | _ => none
  else if mnemonic = "FILLFROM".toList then (triples operands).map .fillFrom
  else if mnemonic = "INITIALIZE".toList then
    match numbers operands with
    | some [target] => some (.initTarget target)
    | _ => none
  else if mnemonic = "REQUESTUPDATE".toList then (orderOperand operands).map .requestUpdate
  else if mnemonic = "OFF".toList then
    match numbers operands with
    | some [idx] => some (.off idx)
    | _ => none
  else if operands ≠ [] then none
  else if mnemonic = "ENABLE".toList then some .enable
  else if mnemonic = "ISREADY".toList then some .isReady
  else if mnemonic = "CLEAR".toList then some .clear
  else if mnemonic = "UPDATE".toList then some .update
  else none

/-- A line read from its characters (R83, R84). -/
def parseLine (line : List Char) : Option AsmLine :=
  match tokenize [] line with
  | some (.word mnemonic :: operands) => lineOfTokens mnemonic operands
  | _ => none

/-! ## From a line's numbers to a command -/

/-- An assembler operand in a field of `bits` bits; refused when out of range (R83). -/
def asmField (bits n : Nat) : Option (BitVec bits) :=
  if n < 2 ^ bits then some (BitVec.ofNat bits n) else none

/-- An assembler colour, each member 0 to 255 (R83). -/
def asmHsv (h s v : Nat) : Option Hsv := do
  return ⟨← asmField 8 h, ← asmField 8 s, ← asmField 8 v⟩

/-- The ORD of REQUESTUPDATE's operand (R83). -/
def asmOrder : AsmOrder → Option (BitVec 2)
  | .rgb => some 0b01
  | .grb => some 0b00
  | .ord n => asmField 2 n

/-- The command an assembler line stands for; none where the assembler refuses the line (R83, R84). -/
def assemble (n : Nat) : AsmLine → Option Instr
  | .setColor idx h s v => do return .setColor (← asmField 16 idx) (← asmHsv h s v)
  | .getColor idx => do return .getColor (← asmField 16 idx)
  | .setChannel idx v => do return .setChannel (← asmField 16 idx) (← asmField 8 v)
  | .scaleChannel idx pct => do return .scaleChannel (← asmField 16 idx) (← asmField 8 pct)
  | .fill h s v => do return .fill (← asmHsv h s v)
  | .fillFrom triples =>
    if triples.length = n then do
      return .fillFrom (← triples.mapM fun t => (asmHsv t.1 t.2.1 t.2.2).map dataWordOfHsv)
    else none
  | .initTarget target => do return .initTarget (← asmField 32 target)
  | .enable => some .enable
  | .isReady => some .isReady
  | .requestUpdate o => do return .requestUpdate (← asmOrder o)
  | .clear => some .clear
  | .off idx => do return .off (← asmField 16 idx)
  | .update => some .update

/-- The words of a line for a block of `n` LEDs; none where the assembler refuses the line (R83). -/
def assembleLine (n : Nat) (line : List Char) : Option (List CmdWord) :=
  ((parseLine line).bind (assemble n)).map encode

end Sys2Proof.Machine
end

