-- ==== Sys2Proof/Machine/Line.lean ====
section
/-! DEFINITION. What the codes of WIRE mean on the output line (R104, R105). It is no part of a step. -/

namespace Sys2Proof.Machine

/-- The pulse of one bit period on the line (R104). Its durations are the backend's (R159). -/
inductive Pulse where
  /-- The pulse of a logical 1. -/
  | longHighShortLow
  /-- The pulse of a logical 0. -/
  | shortHighLongLow
  deriving DecidableEq, Repr

/-- The pulses a code produces (R104). Both, if the configuration makes ONE_CODE and ZERO_CODE one value, which R10 does
not forbid. -/
abbrev CodeProduces (c : Config) (x : PulseCode) (p : Pulse) : Prop :=
  (x = c.oneCode ∧ p = .longHighShortLow) ∨ (x = c.zeroCode ∧ p = .shortHighLongLow)

/-- The code of bit `k` of LED `i` in a frame: slot 24 * i + k of the buffer it was emitted from (R48, R105). -/
def Frame.codeOfLed (f : Frame) (i k : Nat) : Option PulseCode := f.codes[bitsPerLed * i + k]?

end Sys2Proof.Machine
end

