-- ==== Sys2Proof/Safety.lean ====
section
/-! DEFINITION. What the claims are stated in: the final states of R144, the states a run can reach, and the invariant of
10_state.md section 6 with what keeps it. -/

namespace Sys2Proof.Machine

/-- A move that brings one more command word. -/
def Move.supplies : Move → Bool
  | .cmd => false
  | .dma => false
  | .supply _ => true
  | .reset _ => false
  | .hold => false

/-- A final state (R144): no fault, no transfer in flight, and the host stream exhausted, words still to be
written included. A refusal ends a run, so no state bears a refusal mark (R16). -/
abbrev State.final (s : State) : Prop :=
  s.fault = false ∧ s.dmaActive = false ∧ s.host = [] ∧ s.hostTail = .ended ∧
    (s.moves.all fun m => !m.supplies) = true

/-- A frame no longer open: ONE_CODE and ZERO_CODE only, exactly L of them if DMA_COMPLETE closed it and at
most L if a reset cut it short (R33, R103, R148). -/
structure Frame.Settled (c : Config) (f : Frame) : Prop where
  codes : ∀ x ∈ f.codes, x = c.oneCode ∨ x = c.zeroCode
  notOpen : f.status ≠ .inFlight
  closed : f.status = .closed → f.codes.length = c.bufferLength
  truncated : f.status = .truncated → f.codes.length ≤ c.bufferLength

/-- The first DMA_POS slots of the buffer: what the open frame must hold (R58, R133). -/
def State.emitted (s : State) : List PulseCode := (List.range s.dmaPos).map s.slotAt

/-- The invariant of the block. -/
structure State.Inv (s : State) : Prop where
  /-- The parameters are within their bounds (R8, R10). -/
  configWf : s.config.wf
  /-- COLOR is in canonical form and lists entries 0 to N-1 only (R23, R45). -/
  colorWf : Memory.wf Hsv.black s.color = true
  colorWithin : Memory.within s.config.ledCapacity s.color = true
  /-- TBUF is in canonical form and lists slots 0 to L-1 only (R24, R45). -/
  tbufWf : Memory.wf 0 s.tbuf = true
  tbufWithin : Memory.within s.config.bufferLength s.tbuf = true
  /-- Every slot fits in CODE_BITS bits (R10, R24). -/
  slotWidth : ∀ j, s.slotAt j < 2 ^ s.config.codeBits
  /-- BUSY = DMA_ACTIVE (R36). -/
  busyIsActive : s.busy = s.dmaActive
  /-- BUSY = 1 implies INIT = 1, and INIT = 1 implies CFG = 1 (R37). -/
  busyInit : s.busy = true → s.init = true
  initCfg : s.init = true → s.cfg = true
  /-- A recorded target comes from an INITIALIZE (R37). -/
  targetCfg : s.target ≠ targetNone → s.cfg = true
  /-- DMA_POS <= L, and 0 without a transfer (R38). -/
  posBound : s.dmaPos ≤ s.config.bufferLength
  posIdle : s.dmaActive = false → s.dmaPos = 0
  /-- FCAUSE and FCMD are 0 without a fault, and FCAUSE is never a reserved code (R120). -/
  noFault : s.fault = false → s.fcause = 0 ∧ s.fcmd = 0
  faultCause : s.fault = true → ∃ c : Cause, s.fcause = c.code
  /-- While a transfer is in flight every slot is ONE_CODE or ZERO_CODE (R103). -/
  slotsAreCodes : s.dmaActive = true →
    ∀ j, j < s.config.bufferLength → s.slotAt j = s.config.oneCode ∨ s.slotAt j = s.config.zeroCode
  /-- Without a transfer no frame is open; with one, only the last, and it holds the slots emitted (R33, R58). -/
  wireIdle : s.dmaActive = false → ∀ f ∈ s.wire, f.Settled s.config
  wireActive : s.dmaActive = true →
    ∃ done, s.wire = done ++ [⟨s.emitted, .inFlight⟩] ∧ ∀ f ∈ done, f.Settled s.config

/-- The states of the block's runs: from reset in any configuration within its bounds and with any inputs, by steps. -/
inductive Reachable : State → Prop where
  | launch (c : Config) (host : List CmdWord) (hostTail : HostTail) (moves : List Move) (draws : List Bool) (freeCount : Nat)
      (h : c.wf) :
      Reachable { State.resetWith c with
        host := host, hostTail := hostTail, moves := moves, draws := draws, freeCount := freeCount }
  | step (s t : State) (h : Reachable s) (hs : step s = .next t) : Reachable t

end Sys2Proof.Machine
end

