-- ==== Sys2Proof/Certificates/Slice0/Obligations.lean ====
section
/-! DEFINITION. The statements for the provers, from the numbered rules of spec/. -/

open Sys2Proof Sys2Proof.Machine

/-! ## Encoding (30_encoding.md) -/

/-- The example words of R88 to R93 and R108 to R115 decode to the commands they stand for. -/
def Obligations.SpecExampleWordsDecode : Prop :=
  decode 2 [0x01000001005500FF] = .command (.setColor 1 ⟨0x55, 0x00, 0xFF⟩) [] ∧
  decode 2 [0x0200000100000000] = .command (.getColor 1) [] ∧
  decode 2 [0x03000002000000FF] = .command (.setChannel 2 0xFF) [] ∧
  decode 2 [0x0400000100000032] = .command (.scaleChannel 1 50) [] ∧
  decode 2 [0x05000000001020C8] = .command (.fill ⟨0x10, 0x20, 0xC8⟩) [] ∧
  decode 2 [0x0600000000000000, 0x0000000000010203, 0x0000000000040506] =
    .command (.fillFrom [0x0000000000010203, 0x0000000000040506]) [] ∧
  decode 2 [0x0700000000000011] = .command (.initTarget 0x11) [] ∧
  decode 2 [0x0800000000000000] = .command .enable [] ∧
  decode 2 [0x0900000000000000] = .command .isReady [] ∧
  decode 2 [0x0A01000000000000] = .command (.requestUpdate 0b01) []

/-- Decoding the words of any well-formed command, whatever follows them, gives the command back and
leaves what follows (R65 to R77, R82). -/
def Obligations.DecodeOfEncodeGivesCommandBack : Prop :=
  ∀ (n : Nat) (i : Instr) (rest : List CmdWord), WellFormed n i = true →
    decode n (encode i ++ rest) = .command i rest

/-- A decoded command is well-formed, and its words are the words taken from the stream: every bit of
an accepted word is a bit of the command (R66, R79). -/
def Obligations.EncodeOfDecodeGivesWordsBack : Prop :=
  ∀ (n : Nat) (ws : List CmdWord) (i : Instr) (rest : List CmdWord), decode n ws = .command i rest →
    WellFormed n i = true ∧ encode i ++ rest = ws

/-- R76: a word is accepted as a command exactly when the command's row of the match and mask table
selects it; at most one row matches a word, the data words' row included; a data word is good exactly by its
own match and mask; and the N words after a FILLFROM word are its data, whatever their bits. -/
def Obligations.DecoderAgreesWithMatchMaskTable : Prop :=
  (∀ (w : CmdWord) (data : List CmdWord) (op : Opcode),
    (∃ i, decodeWord w data = .ok i ∧ i.opcode = op) ↔ ∃ r ∈ maskTable, r.op = op ∧ w &&& r.mask = r.pattern) ∧
  (∀ (w : CmdWord), ∀ r ∈ maskTable, ∀ r' ∈ maskTable,
    w &&& r.mask = r.pattern → w &&& r'.mask = r'.pattern → r = r') ∧
  (∀ (w : CmdWord), ∀ r ∈ maskTable, w &&& r.mask = r.pattern → w &&& 0xFFFFFFFFFF000000 ≠ 0) ∧
  (∀ d : CmdWord, dataWordOk d = true ↔ d &&& 0xFFFFFFFFFF000000 = 0) ∧
  (∀ (n : Nat) (data rest : List CmdWord), data.length = n →
    decode n (0x0600000000000000 :: (data ++ rest)) = .command (.fillFrom data) rest)

/-- R78: a word with OP = 0x00 or OP = 0x0B to 0xFF faults with ILLEGAL_COMMAND and has no other effect, the
all-zero word among them. -/
def Obligations.UnassignedOpcodeFaults : Prop :=
  (∀ (s : State) (w : CmdWord) (ws : List CmdWord), s.fault = false → s.host = w :: ws →
    (w.extractLsb' 56 8 = 0x00 ∨ 0x0A < (w.extractLsb' 56 8).toNat) →
      cmdStep s = .next { s with host := ws, fault := true, fcause := 0x01, fcmd := w }) ∧
  (∀ (s : State) (ws : List CmdWord), s.fault = false → s.host = 0x0000000000000000 :: ws →
    cmdStep s = .next { s with host := ws, fault := true, fcause := 0x01, fcmd := 0x0000000000000000 })

/-- R79: a word with an assigned opcode and a non-zero bit in RSV, in ORD outside REQUESTUPDATE, in an
unused IDX, or in a reserved bit of DATA faults with ILLEGAL_COMMAND and has no other effect, whatever its index; and a
FILLFROM with a bad data word faults with BAD_DATA_WORD and has no other effect. (For OP = 0x06 the N words are there, and
whether an illegal word takes them too is left open here: log entry 6.) -/
def Obligations.NonzeroReservedFieldFaults : Prop :=
  (∀ (s : State) (w : CmdWord) (ws : List CmdWord) (op : Opcode), s.fault = false → s.host = w :: ws →
    w.extractLsb' 56 8 = op.byte → (op = .fillFrom → s.config.ledCapacity ≤ ws.length) →
    (w.extractLsb' 50 6 ≠ 0 ∨
      (op ≠ .requestUpdate ∧ w.extractLsb' 48 2 ≠ 0) ∨
      (op ∉ [Opcode.setColor, .getColor, .setChannel, .scaleChannel] ∧ w.extractLsb' 32 16 ≠ 0) ∨
      (op ∈ [Opcode.setColor, .fill] ∧ w.extractLsb' 24 8 ≠ 0) ∨
      (op ∈ [Opcode.setChannel, .scaleChannel] ∧ w.extractLsb' 8 24 ≠ 0) ∨
      (op ∈ [Opcode.getColor, .fillFrom, .enable, .isReady, .requestUpdate] ∧ w.extractLsb' 0 32 ≠ 0)) →
      ∃ rest, cmdStep s = .next { s with host := rest, fault := true, fcause := 0x01, fcmd := w } ∧
        (rest = ws ∨ op = .fillFrom ∧ rest = ws.drop s.config.ledCapacity)) ∧
  (∀ (s : State) (data rest : List CmdWord), s.fault = false → data.length = s.config.ledCapacity →
    s.host = 0x0600000000000000 :: (data ++ rest) →
    (∃ d ∈ data, d.extractLsb' 32 32 ≠ 0 ∨ d.extractLsb' 24 8 ≠ 0) →
      ∃ d ∈ data, (d.extractLsb' 32 32 ≠ 0 ∨ d.extractLsb' 24 8 ≠ 0) ∧
        cmdStep s = .next { s with host := rest, fault := true, fcause := 0x04, fcmd := d })

/-- R82, R85: a command's length is told from OP alone. A word with OP = 0x06, whatever its other bits, takes N more words with
it, and until they have been supplied the CMD agent is stuck and the state is not final; any other word is taken alone, at
once. That an illegal word with OP = 0x06 is one of these is log entry 6; that a stuck agent is a named stop is log entry 11. -/
def Obligations.FillFromWaitsForItsDataWords : Prop :=
  ∀ (s : State) (w : CmdWord) (ws : List CmdWord), s.fault = false → s.host = w :: ws →
    (w.extractLsb' 56 8 = 0x06 → ws.length < s.config.ledCapacity →
      cmdEnabled s = false ∧ cmdStep s = .fault .awaitingDataWords ∧ ¬ s.final) ∧
    (w.extractLsb' 56 8 = 0x06 → s.config.ledCapacity ≤ ws.length →
      cmdEnabled s = true ∧ ∃ t, cmdStep s = .next t ∧ t.host = ws.drop s.config.ledCapacity) ∧
    (w.extractLsb' 56 8 ≠ 0x06 → cmdEnabled s = true ∧ ∃ t, cmdStep s = .next t ∧ t.host = ws)

/-- The assembler (R83) answers a well-formed command without a bad data word or refuses the line: for every line of R83 it
gives the command with its operands where each is in its range, and refuses the line where one is not or a FILLFROM has other
than N triples. The pseudo-instructions (R84) give the words R84 names. -/
def Obligations.AssemblerAnswersLegalCommands : Prop :=
  (∀ (n : Nat) (l : AsmLine) (i : Instr), assemble n l = some i →
    WellFormed n i = true ∧ ∀ d ∈ dataWords i, dataWordOk d = true) ∧
  (∀ n idx h s v : Nat, assemble n (.setColor idx h s v) =
    if idx ≤ 65535 ∧ h ≤ 255 ∧ s ≤ 255 ∧ v ≤ 255 then
      some (.setColor (BitVec.ofNat 16 idx) ⟨BitVec.ofNat 8 h, BitVec.ofNat 8 s, BitVec.ofNat 8 v⟩)
    else none) ∧
  (∀ n idx : Nat, assemble n (.getColor idx) =
    if idx ≤ 65535 then some (.getColor (BitVec.ofNat 16 idx)) else none) ∧
  (∀ n idx v : Nat, assemble n (.setChannel idx v) =
    if idx ≤ 65535 ∧ v ≤ 255 then some (.setChannel (BitVec.ofNat 16 idx) (BitVec.ofNat 8 v)) else none) ∧
  (∀ n idx pct : Nat, assemble n (.scaleChannel idx pct) =
    if idx ≤ 65535 ∧ pct ≤ 255 then some (.scaleChannel (BitVec.ofNat 16 idx) (BitVec.ofNat 8 pct)) else none) ∧
  (∀ n h s v : Nat, assemble n (.fill h s v) =
    if h ≤ 255 ∧ s ≤ 255 ∧ v ≤ 255 then some (.fill ⟨BitVec.ofNat 8 h, BitVec.ofNat 8 s, BitVec.ofNat 8 v⟩)
    else none) ∧
  (∀ (n : Nat) (triples : List (Nat × Nat × Nat)), assemble n (.fillFrom triples) =
    if triples.length = n ∧ ∀ t ∈ triples, t.1 ≤ 255 ∧ t.2.1 ≤ 255 ∧ t.2.2 ≤ 255 then
      some (.fillFrom (triples.map fun t =>
        (0 : BitVec 40) ++ BitVec.ofNat 8 t.1 ++ BitVec.ofNat 8 t.2.1 ++ BitVec.ofNat 8 t.2.2))
    else none) ∧
  (∀ n target : Nat, assemble n (.initTarget target) =
    if target ≤ 0xFFFFFFFF then some (.initTarget (BitVec.ofNat 32 target)) else none) ∧
  (∀ n : Nat, assemble n .enable = some .enable ∧ assemble n .isReady = some .isReady) ∧
  (∀ n k : Nat, assemble n (.requestUpdate .grb) = some (.requestUpdate 0b00) ∧
    assemble n (.requestUpdate .rgb) = some (.requestUpdate 0b01) ∧
    assemble n (.requestUpdate (.ord k)) = if k ≤ 3 then some (.requestUpdate (BitVec.ofNat 2 k)) else none) ∧
  (∀ n : Nat, assembleLine n "CLEAR".toList = some [0x0500000000000000] ∧
    assembleLine n "UPDATE".toList = some [0x0A00000000000000]) ∧
  (∀ n idx : Nat, (assemble n (.off idx)).map encode =
    if idx ≤ 65535 then some [0x0100000000000000#64 ||| (BitVec.ofNat 64 idx <<< 32)] else none)

/-! ## A step -/

/-- A step of the machine whose next move is the CMD agent's, listed or as the only enabled agent, with FAULT = 0 and a
command at the head of the stream, is `exec` of that command, its words taken from the stream (R44, R52). -/
def Obligations.StepRunsDecodedCommand : Prop :=
  ∀ (s : State) (i : Instr) (rest : List CmdWord), s.fault = false →
    decode s.config.ledCapacity s.host = .command i rest →
    (∀ ms, s.moves = .cmd :: ms → step s = exec i { s with host := rest, moves := ms }) ∧
    (s.moves = [] → dmaEnabled s = false →
      step s = exec i { s with host := rest, freeCount := s.freeCount + 1 })

/-- After `withFetchWord`, the very next step of a block without a fault runs the instruction placed (log entry 8). -/
def Obligations.WithFetchWordRunsInstruction : Prop :=
  ∀ (s : State) (nbits w : Nat) (i : Instr), s.fault = false →
    decode s.config.ledCapacity (tableWords s.config.ledCapacity nbits w) = .command i [] →
    step (s.withFetchWord nbits w) = exec i s

/-- R54, R130: an agent is enabled exactly when it can take a step, the DMA agent exactly as R133 and R134 say, and a
listed move of an agent is that step, so with both enabled either may go first. A word the host writes goes to the end of its
stream and nothing else changes (R21, R44); a move in which no agent acts changes nothing (R142); and a block without a fault
never stops for want of a word while the host's stream goes on (R44). The list of moves is the model's own, log entry 3. -/
def Obligations.EnabledAgentsTakeSteps : Prop :=
  ∀ s : State,
    (cmdEnabled s = true ↔ ∃ t, cmdStep s = .next t) ∧
    (dmaEnabled s = true ↔ ∃ t, dmaStep s = .next t) ∧
    (dmaEnabled s = true ↔ s.dmaActive = true ∧ s.dmaPos ≤ 24 * s.config.ledCapacity) ∧
    (∀ ms, s.moves = .cmd :: ms → step s = cmdStep { s with moves := ms }) ∧
    (∀ ms, s.moves = .dma :: ms → step s = dmaStep { s with moves := ms }) ∧
    (∀ w ms, s.moves = .supply w :: ms → step s = .next { s with host := s.host ++ [w], moves := ms }) ∧
    (∀ ms, s.moves = .hold :: ms → step s = .next { s with moves := ms }) ∧
    (s.moves = [] → s.fault = false → s.hostTail ≠ .ended → ∃ t, step s = .next t)

/-- R42, R154: no step changes N, CODE_BITS, ONE_CODE, ZERO_CODE, hsvToRgb or DMA_FAIR. -/
def Obligations.NoStepChangesConfiguration : Prop :=
  ∀ s t : State, step s = .next t → t.config = s.config

/-! ## ColorStore commands (40_colorstore.md) -/

/-- SETCOLOR with IDX < N (R88): its entry holds the colour, every other entry and every other field is unchanged. -/
def Obligations.SetColorStoresItsEntry : Prop :=
  ∀ (s : State) (idx : BitVec 16) (c : Hsv), idx.toNat < s.config.ledCapacity →
    ∃ t, exec (.setColor idx c) s = .next t ∧
      (∀ a, t.colorAt a = if a = idx.toNat then c else s.colorAt a) ∧ t = { s with color := t.color }

/-- GETCOLOR with IDX < N (R89): RESULT is 0x00, h, s, v of the entry, and nothing else changes. -/
def Obligations.GetColorReadsItsEntry : Prop :=
  ∀ (s : State) (idx : BitVec 16), idx.toNat < s.config.ledCapacity →
    exec (.getColor idx) s = .next { s with
      result := (0x00 : BitVec 8) ++ (s.colorAt idx.toNat).h ++ (s.colorAt idx.toNat).s ++ (s.colorAt idx.toNat).v }

/-- SETCHANNEL with IDX < N (R90): v of its entry is VAL, h and s and everything else are unchanged. -/
def Obligations.SetChannelKeepsHueAndSaturation : Prop :=
  ∀ (s : State) (idx : BitVec 16) (v : Channel), idx.toNat < s.config.ledCapacity →
    ∃ t, exec (.setChannel idx v) s = .next t ∧
      t.colorAt idx.toNat = ⟨(s.colorAt idx.toNat).h, (s.colorAt idx.toNat).s, v⟩ ∧
      (∀ a, a ≠ idx.toNat → t.colorAt a = s.colorAt a) ∧ t = { s with color := t.color }

/-- SCALECHANNEL with IDX < N (R91): v of its entry becomes v * pct / 100, truncated, modulo 256; h and s and everything
else are unchanged; 100 percent changes nothing and 0 percent gives 0. -/
def Obligations.ScaleChannelTruncatesAndWraps : Prop :=
  (∀ (s : State) (idx : BitVec 16) (pct : BitVec 8), idx.toNat < s.config.ledCapacity →
    ∃ t, exec (.scaleChannel idx pct) s = .next t ∧
      (t.colorAt idx.toNat).v.toNat = ((s.colorAt idx.toNat).v.toNat * pct.toNat / 100) % 256 ∧
      (t.colorAt idx.toNat).h = (s.colorAt idx.toNat).h ∧ (t.colorAt idx.toNat).s = (s.colorAt idx.toNat).s ∧
      (∀ a, a ≠ idx.toNat → t.colorAt a = s.colorAt a) ∧ t = { s with color := t.color }) ∧
  (∀ v : Channel, scaledChannel v 100 = v ∧ scaledChannel v 0 = 0)

/-- FILL (R92): every entry 0 to N-1 holds the colour and nothing else changes. -/
def Obligations.FillWritesEveryEntry : Prop :=
  ∀ (s : State) (c : Hsv), ∃ t, exec (.fill c) s = .next t ∧
    (∀ a, t.colorAt a = if a < s.config.ledCapacity then c else s.colorAt a) ∧ t = { s with color := t.color }

/-- FILLFROM with N good data words (R74, R93): entry n holds the colour of data word n, and nothing else changes. -/
def Obligations.FillFromCopiesInIndexOrder : Prop :=
  ∀ (s : State) (data : List CmdWord), data.length = s.config.ledCapacity →
    (∀ d ∈ data, d.extractLsb' 24 40 = 0) →
    ∃ t, exec (.fillFrom data) s = .next t ∧
      (∀ n d, data[n]? = some d → t.colorAt n = ⟨d.extractLsb' 16 8, d.extractLsb' 8 8, d.extractLsb' 0 8⟩) ∧
      (∀ a, s.config.ledCapacity ≤ a → t.colorAt a = s.colorAt a) ∧ t = { s with color := t.color }

/-- FILLFROM with a bad data word (R93, R122): BAD_DATA_WORD with the lowest-numbered one in FCMD, and no entry written. -/
def Obligations.FillFromReportsFirstBadDataWord : Prop :=
  ∀ (s : State) (good rest : List CmdWord) (bad : CmdWord),
    (good ++ bad :: rest).length = s.config.ledCapacity →
    (∀ d ∈ good, d.extractLsb' 24 40 = 0) → bad.extractLsb' 24 40 ≠ 0 →
    exec (.fillFrom (good ++ bad :: rest)) s = .next { s with fault := true, fcause := 0x04, fcmd := bad }

/-- A FILLFROM term whose list is not N long is refused, and no other command term ever is (R16, R93). -/
def Obligations.OnlyIllFormedTermsAreRefused : Prop :=
  ∀ (s : State) (i : Instr),
    (WellFormed s.config.ledCapacity i = true → ∃ t, exec i s = .next t) ∧
    (WellFormed s.config.ledCapacity i = false → exec i s = .refused .fillFromLength)

/-- R87: SETCOLOR, GETCOLOR, SETCHANNEL or SCALECHANNEL with IDX >= N faults with INDEX_RANGE, the command word in
FCMD, and writes nothing else. -/
def Obligations.IndexOutOfRangeFaults : Prop :=
  ∀ (s : State) (w : CmdWord) (ws rest : List CmdWord) (i : Instr), s.fault = false → s.host = w :: ws →
    decode s.config.ledCapacity s.host = .command i rest →
    i.opcode ∈ [Opcode.setColor, .getColor, .setChannel, .scaleChannel] →
    s.config.ledCapacity ≤ (w.extractLsb' 32 16).toNat →
    cmdStep s = .next { s with host := ws, fault := true, fcause := 0x02, fcmd := w }

/-- R94: a ColorStore command changes only COLOR, RESULT and the fault registers, and it reads none of TBUF, BUSY, INIT, CFG,
TARGET and the DMA state: with other values in them it does the same. And nothing else writes COLOR, but for the black
fill of a successful ENABLE: not another command, not the encode pass, not the DMA agent. -/
def Obligations.ColorStoreAndTheRestStayApart : Prop :=
  (∀ (s t : State) (i : Instr),
    i.opcode ∈ [Opcode.setColor, .getColor, .setChannel, .scaleChannel, .fill, .fillFrom] → exec i s = .next t →
    t = { s with color := t.color, result := t.result, fault := t.fault, fcause := t.fcause, fcmd := t.fcmd } ∧
    (i.opcode ≠ .getColor → t.result = s.result) ∧ (i.opcode = .getColor → t.color = s.color) ∧
    ∀ (tbuf : Memory PulseCode) (busy init cfg active : Bool) (target : Target) (pos : Nat),
      exec i { s with tbuf := tbuf, busy := busy, init := init, cfg := cfg, target := target,
                      dmaActive := active, dmaPos := pos } =
        .next { t with tbuf := tbuf, busy := busy, init := init, cfg := cfg, target := target,
                       dmaActive := active, dmaPos := pos }) ∧
  (∀ (s t : State) (i : Instr), i.opcode ∈ [Opcode.initTarget, .enable, .isReady, .requestUpdate] → exec i s = .next t →
    t.color = s.color ∨
    (i.opcode = .enable ∧ s.init = false ∧ t.init = true ∧
      ∀ a, t.colorAt a = if a < s.config.ledCapacity then ⟨0, 0, 0⟩ else s.colorAt a)) ∧
  (∀ (s : State) (ord : BitVec 2), (encodePass ord s).color = s.color) ∧
  (∀ s t : State, dmaStep s = .next t → t.color = s.color)

/-- R53: repeating a SETCOLOR, SETCHANNEL, FILL, FILLFROM or INITIALIZE leaves the same state (stores in canonical form). -/
def Obligations.RepeatedWritesLeaveSameState : Prop :=
  ∀ (s t : State) (i : Instr), Memory.wf Hsv.black s.color = true → Memory.wf 0 s.tbuf = true →
    i.opcode ∈ [Opcode.setColor, .setChannel, .fill, .fillFrom, .initTarget] →
    exec i s = .next t → exec i t = .next t

/-! ## The encoder (41_encoder.md) -/

/-- R96: PACK in order RGB, its corner cases and its example. -/
def Obligations.PackRgbPlacesRedFirst : Prop :=
  (∀ x : Rgb, (pack 0b01 x).extractLsb' 16 8 = x.r ∧ (pack 0b01 x).extractLsb' 8 8 = x.g ∧
    (pack 0b01 x).extractLsb' 0 8 = x.b) ∧
  (∀ ord : BitVec 2, pack ord ⟨0, 0, 0⟩ = 0x000000 ∧ pack ord ⟨255, 255, 255⟩ = 0xFFFFFF) ∧
  pack 0b01 ⟨0x12, 0x34, 0x56⟩ = 0x123456

/-- R97: PACK in order GRB and in an unrecognized order, and its examples. -/
def Obligations.PackOtherOrdersPlaceGreenFirst : Prop :=
  (∀ (ord : BitVec 2) (x : Rgb), ord ≠ 0b01 → (pack ord x).extractLsb' 16 8 = x.g ∧
    (pack ord x).extractLsb' 8 8 = x.r ∧ (pack ord x).extractLsb' 0 8 = x.b) ∧
  pack 0b00 ⟨0x12, 0x34, 0x56⟩ = 0x341256 ∧ pack 0b11 ⟨0x12, 0x34, 0x56⟩ = 0x341256

/-- R98 to R100: ENCODELED gives slot 24*i + k the code of bit 23 - k of the packed word, ONE_CODE for 1 and
ZERO_CODE for 0, and leaves every other slot as it was. -/
def Obligations.EncodeLedWritesExactlyItsSlots : Prop :=
  ∀ (c : Config) (ord : BitVec 2) (x : Rgb) (i : Nat) (tbuf : Memory PulseCode),
    (∀ k, k < 24 → Memory.read 0 (encodeLed c ord x i tbuf) (24 * i + k) =
      if (pack ord x).getLsbD (23 - k) = true then c.oneCode else c.zeroCode) ∧
    (∀ j, j < 24 * i ∨ 24 * i + 24 ≤ j → Memory.read 0 (encodeLed c ord x i tbuf) j = Memory.read 0 tbuf j)

/-- R101: under RGB and GRB the blue slots are equal and the red and green slots are exchanged. -/
def Obligations.ChannelOrdersSwapRedAndGreen : Prop :=
  ∀ (c : Config) (x : Rgb) (i : Nat) (tbuf : Memory PulseCode) (k : Nat), k < 8 →
    Memory.read 0 (encodeLed c 0b01 x i tbuf) (24 * i + 16 + k) = Memory.read 0 (encodeLed c 0b00 x i tbuf) (24 * i + 16 + k) ∧
    Memory.read 0 (encodeLed c 0b01 x i tbuf) (24 * i + k) = Memory.read 0 (encodeLed c 0b00 x i tbuf) (24 * i + 8 + k) ∧
    Memory.read 0 (encodeLed c 0b01 x i tbuf) (24 * i + 8 + k) = Memory.read 0 (encodeLed c 0b00 x i tbuf) (24 * i + k)

/-- R64, R100, R102: the encode pass gives the same buffer, as data, whatever the buffer held before. -/
def Obligations.EncodePassForgetsPriorBuffer : Prop :=
  ∀ (s : State) (tbuf tbuf' : Memory PulseCode) (ord : BitVec 2),
    Memory.wf 0 tbuf = true → Memory.within s.config.bufferLength tbuf = true →
    Memory.wf 0 tbuf' = true → Memory.within s.config.bufferLength tbuf' = true →
    encodePass ord { s with tbuf := tbuf } = encodePass ord { s with tbuf := tbuf' }

/-- R11: hsvToRgb satisfies law (c), and takes every value the configuration names for another colour, the first entry for a
colour counting (log entry 2). -/
def Obligations.HsvToRgbKeepsBlackLaw : Prop :=
  (∀ c : Config, hsvToRgb c ⟨0, 0, 0⟩ = ⟨0, 0, 0⟩) ∧
  (∀ (c : Config) (x : Hsv) (y : Rgb) (before more : List (Hsv × Rgb)), x ≠ ⟨0, 0, 0⟩ →
    c.hsvKnown = before ++ (x, y) :: more → (∀ e ∈ before, e.1 ≠ x) → hsvToRgb c x = y)

/-! ## Controller commands (42_controller.md) -/

/-- INITIALIZE with BUSY = 0 (R108): slots 0 to L-1 are the number 0, TARGET is recorded, CFG is set, and nothing else
changes, INIT and RESULT included. -/
def Obligations.InitializeZeroFillsAndRecordsTarget : Prop :=
  ∀ (s : State) (target : Target), s.busy = false →
    ∃ t, exec (.initTarget target) s = .next t ∧
      (∀ j, t.slotAt j = if j < 24 * s.config.ledCapacity then 0 else s.slotAt j) ∧
      t = { s with tbuf := t.tbuf, target := target, cfg := true }

/-- INITIALIZE with BUSY = 1 (R109): INIT_WHILE_BUSY with the command word in FCMD, and nothing else written. -/
def Obligations.InitializeWhileBusyFaults : Prop :=
  ∀ (s : State) (target : Target), s.busy = true →
    exec (.initTarget target) s = .next { s with
      fault := true, fcause := 0x03, fcmd := encodeWord (.initTarget target) }

/-- R132: hardwareInitialize fails for TARGET_NONE without a draw; otherwise its outcome is the next draw, and in no case
does it change the block. -/
def Obligations.HardwareInitializeDrawsUnderItsLaw : Prop :=
  (∀ s : State, s.target = 0 → hardwareInitialize s = (false, s)) ∧
  (∀ (s : State) (ok : Bool) (rest : List Bool), s.target ≠ 0 → s.draws = ok :: rest →
    hardwareInitialize s = (ok, { s with draws := rest })) ∧
  (∀ s : State, (hardwareInitialize s).2 =
    { s with draws := (hardwareInitialize s).2.draws, freeCount := (hardwareInitialize s).2.freeCount })

/-- ENABLE with INIT = 1 (R110): RESULT is 1 and nothing else changes, no draw included; its word is 0x0800000000000000. -/
def Obligations.EnableIsIdempotent : Prop :=
  (∀ s : State, s.init = true → exec .enable s = .next { s with result := 1 }) ∧
  encode .enable = [0x0800000000000000]

/-- ENABLE with INIT = 0 and a successful initialization (R111), whatever the draw came from: every colour black, every
slot ZERO_CODE, INIT, START, RESULT = 1, and nothing else changes. -/
def Obligations.EnableSuccessStartsBlackFrame : Prop :=
  ∀ s : State, s.init = false → (hardwareInitialize s).1 = true →
    ∃ t, exec .enable s = .next t ∧
      (∀ a, t.colorAt a = if a < s.config.ledCapacity then ⟨0, 0, 0⟩ else s.colorAt a) ∧
      (∀ j, t.slotAt j = if j < 24 * s.config.ledCapacity then s.config.zeroCode else s.slotAt j) ∧
      t = { s with color := t.color, tbuf := t.tbuf, init := true, busy := true, dmaActive := true, dmaPos := 0,
                   result := 1, wire := s.wire ++ [⟨[], .inFlight⟩],
                   draws := (hardwareInitialize s).2.draws, freeCount := (hardwareInitialize s).2.freeCount }

/-- ENABLE with INIT = 0 and a failed initialization (R112): RESULT is 0 and nothing else of the block changes. -/
def Obligations.EnableFailureChangesOnlyResult : Prop :=
  ∀ s : State, s.init = false → (hardwareInitialize s).1 = false →
    exec .enable s = .next { s with
      result := 0, draws := (hardwareInitialize s).2.draws, freeCount := (hardwareInitialize s).2.freeCount }

/-- ISREADY (R113): RESULT is 1 if INIT = 1 and BUSY = 0, else 0, and nothing else changes. -/
def Obligations.IsReadyReportsReadiness : Prop :=
  ∀ s : State, exec .isReady s = .next { s with result := if s.init = true ∧ s.busy = false then 1 else 0 }

/-- REQUESTUPDATE with INIT = 0 or BUSY = 1 (R114): the whole state is unchanged, for every ORD. -/
def Obligations.RequestUpdateNotReadyIsDropped : Prop :=
  ∀ (s : State) (ord : BitVec 2), s.init = false ∨ s.busy = true → exec (.requestUpdate ord) s = .next s

/-- REQUESTUPDATE with INIT = 1 and BUSY = 0 (R115): slot 24*i + k is the code of bit 23 - k of LED i's packed colour
as COLOR stands, slots from L on are untouched, START, and nothing else changes. -/
def Obligations.RequestUpdateEncodesAndStarts : Prop :=
  ∀ (s : State) (ord : BitVec 2), s.init = true → s.busy = false →
    ∃ t, exec (.requestUpdate ord) s = .next t ∧
      (∀ i k, i < s.config.ledCapacity → k < 24 → t.slotAt (24 * i + k) =
        if (pack ord (hsvToRgb s.config (s.colorAt i))).getLsbD (23 - k) = true then s.config.oneCode
        else s.config.zeroCode) ∧
      (∀ j, 24 * s.config.ledCapacity ≤ j → t.slotAt j = s.slotAt j) ∧
      t = { s with tbuf := t.tbuf, busy := true, dmaActive := true, dmaPos := 0, wire := s.wire ++ [⟨[], .inFlight⟩] }

/-- R80: ORD = 0b10 and 0b11 decode, and a REQUESTUPDATE with either does exactly what it does with GRB. -/
def Obligations.UnrecognizedOrderActsAsGrb : Prop :=
  (∀ (s : State) (ord : BitVec 2), ord = 0b10 ∨ ord = 0b11 →
    exec (.requestUpdate ord) s = exec (.requestUpdate 0b00) s) ∧
  ∀ (n : Nat) (rest : List CmdWord),
    decode n (0x0A02000000000000 :: rest) = .command (.requestUpdate 0b10) rest ∧
    decode n (0x0A03000000000000 :: rest) = .command (.requestUpdate 0b11) rest

/-- R155: after an ISREADY that reports 1, a REQUESTUPDATE is accepted: it starts a transfer. -/
def Obligations.ReadyMeansNextUpdateIsAccepted : Prop :=
  ∀ (s t : State) (ord : BitVec 2), exec .isReady s = .next t → t.result = 1 →
    ∃ u, exec (.requestUpdate ord) t = .next u ∧ u.busy = true ∧ u.wire = s.wire ++ [⟨[], .inFlight⟩]

/-! ## Faults (60_exceptions.md) -/

/-- R123: where the CMD agent's step faults, the state after it is the state before it plus the three fault registers (less
the words taken from the head of the host's stream); FCMD is the command word, or for BAD_DATA_WORD the first bad data word. -/
def Obligations.FaultsArePrecise : Prop :=
  ∀ s t : State, s.fault = false → cmdStep s = .next t → t.fault = true →
    ∃ (cause : Cause) (w : CmdWord),
      t = { s with host := t.host, fault := true, fcause := cause.code, fcmd := w } ∧
      (∃ taken, taken ≠ [] ∧ s.host = taken ++ t.host) ∧
      (cause ≠ .badDataWord → s.host.head? = some w) ∧
      (cause = .badDataWord → ∃ good rest, s.host.tail = good ++ w :: rest ∧ good.length < s.config.ledCapacity ∧
        (∀ d ∈ good, d.extractLsb' 24 40 = 0) ∧ w.extractLsb' 24 40 ≠ 0)

/-- R121: every command word may fault as ILLEGAL_COMMAND; INDEX_RANGE, BAD_DATA_WORD and INIT_WHILE_BUSY come from the
commands R121 lists only; and the DMA agent raises no fault. -/
def Obligations.EachCommandRaisesItsFaultsOnly : Prop :=
  (∀ (s t : State) (w : CmdWord) (ws : List CmdWord), s.fault = false → s.host = w :: ws → cmdStep s = .next t →
    t.fault = true →
    t.fcause = 0x01 ∨
    (w.extractLsb' 56 8 ∈ [(0x01 : BitVec 8), 0x02, 0x03, 0x04] ∧ t.fcause = 0x02) ∨
    (w.extractLsb' 56 8 = 0x06 ∧ t.fcause = 0x04) ∨ (w.extractLsb' 56 8 = 0x07 ∧ t.fcause = 0x03)) ∧
  (∀ s t : State, dmaStep s = .next t → t.fault = s.fault ∧ t.fcause = s.fcause ∧ t.fcmd = s.fcmd)

/-- R124: while FAULT = 1 the CMD agent takes no command word, the state is not final, and the DMA agent does what
it does without the fault. That the halted agent is a named stop is log entry 11. -/
def Obligations.FaultHaltsCommandsNotTransfers : Prop :=
  ∀ s : State, s.fault = true →
    cmdEnabled s = false ∧ cmdStep s = .fault .cmdHalted ∧ ¬ s.final ∧
    (∀ t, dmaStep { s with fault := false } = .next t → dmaStep s = .next { t with fault := true })

/-- R125: from a faulted state a reset clears the fault, and every other step keeps the three fault registers. -/
def Obligations.OnlyResetClearsFault : Prop :=
  ∀ s t : State, s.fault = true → step s = .next t →
    (∀ keepWire ms, s.moves = .reset keepWire :: ms → t.fault = false ∧ t.fcause = 0 ∧ t.fcmd = 0) ∧
    ((∀ keepWire ms, s.moves ≠ .reset keepWire :: ms) → t.fault = true ∧ t.fcause = s.fcause ∧ t.fcmd = s.fcmd)

/-! ## The DMA agent (60_exceptions.md) -/

/-- R133: DMA_EMIT, whatever FAULT is: the slot at DMA_POS goes to the open frame, and DMA_POS advances by one. -/
def Obligations.DmaEmitsNextSlot : Prop :=
  ∀ (s : State) (done : List Frame) (codes : List PulseCode),
    s.dmaActive = true → s.dmaPos < 24 * s.config.ledCapacity →
    s.wire = done ++ [⟨codes, .inFlight⟩] → (∀ f ∈ done, f.status ≠ .inFlight) →
    dmaStep s = .next { s with wire := done ++ [⟨codes ++ [s.slotAt s.dmaPos], .inFlight⟩], dmaPos := s.dmaPos + 1 }

/-- R134: DMA_COMPLETE closes the open frame and clears DMA_ACTIVE, DMA_POS and BUSY, and no other step but a reset
clears BUSY. -/
def Obligations.DmaCompleteAloneClearsBusy : Prop :=
  (∀ (s : State) (done : List Frame) (codes : List PulseCode),
    s.dmaActive = true → s.dmaPos = 24 * s.config.ledCapacity →
    s.wire = done ++ [⟨codes, .inFlight⟩] → (∀ f ∈ done, f.status ≠ .inFlight) →
    dmaStep s = .next { s with
      wire := done ++ [⟨codes, .closed⟩], dmaActive := false, dmaPos := 0, busy := false }) ∧
  (∀ s t : State, step s = .next t → s.busy = true → t.busy = false →
    ((nextMove s).1 = .dma ∧ s.dmaActive = true ∧ s.dmaPos = 24 * s.config.ledCapacity) ∨
    ∃ keepWire, (nextMove s).1 = .reset keepWire)

/-! ## Whole-machine rules -/

/-- R155: the only steps that set BUSY take a REQUESTUPDATE or an ENABLE, and they begin a transfer at DMA_POS 0. -/
def Obligations.BusySetOnlyByUpdateOrEnable : Prop :=
  ∀ s t : State, step s = .next t → s.busy = false → t.busy = true →
    (nextMove s).1 = .cmd ∧ t.dmaActive = true ∧ t.dmaPos = 0 ∧
    ∃ i rest, decode s.config.ledCapacity s.host = .command i rest ∧
      (i.opcode = .requestUpdate ∧ s.init = true ∨ i.opcode = .enable ∧ s.init = false ∧ t.result = 1)

/-- R26, R27: CFG and INIT are cleared by nothing but a reset. -/
def Obligations.CfgAndInitClearedOnlyByReset : Prop :=
  ∀ s t : State, step s = .next t → (∀ keepWire, (nextMove s).1 ≠ .reset keepWire) →
    (s.cfg = true → t.cfg = true) ∧ (s.init = true → t.init = true)

/-- R58: no step but a reset writes TBUF while BUSY = 1. -/
def Obligations.NoStepWritesBufferWhileBusy : Prop :=
  ∀ s t : State, s.Inv → step s = .next t → s.busy = true → (∀ keepWire, (nextMove s).1 ≠ .reset keepWire) →
    t.tbuf = s.tbuf

/-- R107: the controller's state moves only along the transitions of R107 (a reset apart). -/
def Obligations.ControllerFollowsTransitionTable : Prop :=
  ∀ s t : State, s.Inv → step s = .next t → (∀ keepWire, (nextMove s).1 ≠ .reset keepWire) →
    ∃ a b : ControllerState, s.controller = some a ∧ t.controller = some b ∧
      (a, b) ∈ [(ControllerState.uninit, ControllerState.uninit), (.configured, .configured), (.idle, .idle), (.busy, .busy),
        (.uninit, .configured), (.configured, .busy), (.idle, .busy), (.busy, .idle)]

/-- R144: in a final state neither agent has an enabled step. -/
def Obligations.FinalStatesHaveNoAgentStep : Prop :=
  ∀ s : State, s.final → cmdEnabled s = false ∧ dmaEnabled s = false ∧ cmdStep s = .fault .noCommandWord

/-! ## Reset, STATUS and the invariant -/

/-- R41: the reset value of every state element, and UNINIT, in every configuration. -/
def Obligations.ResetValues : Prop :=
  ∀ c : Config,
    (∀ i, (State.resetWith c).colorAt i = ⟨0, 0, 0⟩) ∧ (∀ j, (State.resetWith c).slotAt j = 0) ∧
    (State.resetWith c).target = 0x00000000 ∧ (State.resetWith c).cfg = false ∧ (State.resetWith c).init = false ∧
    (State.resetWith c).busy = false ∧ (State.resetWith c).result = 0x00000000 ∧ (State.resetWith c).fault = false ∧
    (State.resetWith c).fcause = 0x00 ∧ (State.resetWith c).fcmd = 0x0000000000000000 ∧
    (State.resetWith c).dmaActive = false ∧ (State.resetWith c).dmaPos = 0 ∧ (State.resetWith c).wire = [] ∧
    (State.resetWith c).controller = some .uninit ∧ State.reset = State.resetWith Config.launch

/-- R146, R148: a reset of a running block, from any state that meets the invariant, gives the reset values; WIRE is
emptied, or, only while DMA_ACTIVE = 1, kept with the frame in flight marked truncated with its DMA_POS codes. That the host's
words stay is log entry 7. -/
def Obligations.ResetOfRunningBlock : Prop :=
  ∀ (s : State) (keepWire : Bool) (ms : List Move), s.Inv → s.moves = .reset keepWire :: ms →
    ∃ t, step s = .next t ∧
      t = { State.resetWith s.config with
            wire := t.wire, host := s.host, hostTail := s.hostTail, moves := ms, draws := s.draws, freeCount := s.freeCount } ∧
      (keepWire = false ∨ s.dmaActive = false → t.wire = []) ∧
      (keepWire = true → s.dmaActive = true → ∃ done codes, s.wire = done ++ [⟨codes, .inFlight⟩] ∧
        t.wire = done ++ [⟨codes, .truncated⟩] ∧ codes.length = s.dmaPos)

/-- R34: STATUS bit by bit, and its reset value. -/
def Obligations.StatusShowsItsFields : Prop :=
  (∀ s : State,
    s.statusWord.getLsbD 0 = s.cfg ∧ s.statusWord.getLsbD 1 = s.init ∧ s.statusWord.getLsbD 2 = s.busy ∧
    s.statusWord.getLsbD 3 = (s.init && !s.busy) ∧ s.statusWord.getLsbD 4 = s.fault ∧
    s.statusWord.getLsbD 5 = s.dmaActive ∧ s.statusWord.extractLsb' 6 2 = 0 ∧
    s.statusWord.extractLsb' 8 8 = s.fcause ∧ s.statusWord.extractLsb' 16 16 = 0) ∧
  (∀ c : Config, (State.resetWith c).statusWord = 0x00000000)

/-- The invariant holds at reset, in every configuration within its bounds and with any inputs, the launched one among them. -/
def Obligations.ResetMeetsInvariant : Prop :=
  (∀ (c : Config) (host : List CmdWord) (hostTail : HostTail) (moves : List Move) (draws : List Bool) (freeCount : Nat), c.wf →
    State.Inv { State.resetWith c with
      host := host, hostTail := hostTail, moves := moves, draws := draws, freeCount := freeCount }) ∧
  State.reset.Inv

/-- Every step keeps the invariant: the stores stay canonical, within N and L and CODE_BITS wide, BUSY = DMA_ACTIVE
implies INIT implies CFG, DMA_POS <= L, FCAUSE is a code of R120, the open frame is the buffer up to DMA_POS, and every
closed frame has L codes, all of them ONE_CODE or ZERO_CODE (R33, R36 to R38, R58, R103, R120). -/
def Obligations.StepKeepsInvariant : Prop :=
  ∀ s t : State, s.Inv → step s = .next t → t.Inv

/-- R36, R37, R38 of every reachable state: BUSY = DMA_ACTIVE; BUSY implies INIT implies CFG, so only the four flag
combinations of R35 occur; DMA_POS <= L, and 0 without a transfer. -/
def Obligations.ReachableFlagInvariants : Prop :=
  ∀ s : State, Reachable s →
    s.busy = s.dmaActive ∧ (s.busy = true → s.init = true) ∧ (s.init = true → s.cfg = true) ∧
    (∃ a, s.controller = some a) ∧ s.dmaPos ≤ 24 * s.config.ledCapacity ∧ (s.dmaActive = false → s.dmaPos = 0)

/-- A transfer in flight, given the DMA moves it needs, completes, faulted or not: the closed frame is TBUF from slot 0
to slot L-1 in order, BUSY and DMA_ACTIVE are 0, and nothing else changes (R105, R124, R133, R134). -/
def Obligations.TransferSendsWholeBuffer : Prop :=
  ∀ (s : State) (ms : List Move), s.Inv → s.dmaActive = true →
    s.moves = List.replicate (24 * s.config.ledCapacity - s.dmaPos + 1) .dma ++ ms →
    ∃ done codes, s.wire = done ++ [⟨codes, .inFlight⟩] ∧
      Sys2Proof.core.run (24 * s.config.ledCapacity - s.dmaPos + 1) s = .next
        { s with wire := done ++ [⟨(List.range (24 * s.config.ledCapacity)).map s.slotAt, .closed⟩],
                 dmaActive := false, dmaPos := 0, busy := false, moves := ms }

/-- With DMA_FAIR and no move listed, the machine by itself completes the transfer in flight, whatever commands it takes
meanwhile and even from an endless stream: after some number of steps the open frame is closed with TBUF from slot 0 to slot
L-1 and BUSY is 0, the frames before it untouched. With no command to take and no word to come, that number is L - DMA_POS + 1
and nothing else changes. (R136; how the next move is chosen is the model's, log entry 3.) -/
def Obligations.FairBackendCompletesTransfer : Prop :=
  ∀ s : State, s.Inv → s.dmaActive = true → s.config.dmaFair = true → s.moves = [] →
    ∃ done codes, s.wire = done ++ [⟨codes, .inFlight⟩] ∧
      (∃ k t, Sys2Proof.core.run k s = .next t ∧ t.busy = false ∧
        t.wire = done ++ [⟨(List.range (24 * s.config.ledCapacity)).map s.slotAt, .closed⟩]) ∧
      (cmdEnabled s = false → s.hostTail = .ended →
        Sys2Proof.core.run (24 * s.config.ledCapacity - s.dmaPos + 1) s = .next
          { s with wire := done ++ [⟨(List.range (24 * s.config.ledCapacity)).map s.slotAt, .closed⟩],
                   dmaActive := false, dmaPos := 0, busy := false, dmaWait := none,
                   freeCount := s.freeCount + (24 * s.config.ledCapacity - s.dmaPos + 1) })

/-- From an accepted REQUESTUPDATE to the line: once the DMA agent has made its L + 1 steps, WIRE has one more frame, complete,
and its code 24*i + k is the code of bit 23 - k of LED i's packed colour, COLOR as it stood at the command; where ONE_CODE and
ZERO_CODE differ, that code is a long high pulse exactly when the bit is 1. BUSY is 0 again and COLOR is as it was. -/
def Obligations.AcceptedUpdateReachesTheLine : Prop :=
  ∀ (s : State) (ord : BitVec 2) (ms : List Move), s.Inv → s.init = true → s.busy = false →
    s.moves = List.replicate (24 * s.config.ledCapacity + 1) .dma ++ ms →
    ∃ (t u : State) (f : Frame),
      exec (.requestUpdate ord) s = .next t ∧
      Sys2Proof.core.run (24 * s.config.ledCapacity + 1) t = .next u ∧
      u.wire = s.wire ++ [f] ∧ f.complete (24 * s.config.ledCapacity) = true ∧
      u.busy = false ∧ u.color = s.color ∧ u.moves = ms ∧
      ∀ i k, i < s.config.ledCapacity → k < 24 →
        ∃ x, f.codeOfLed i k = some x ∧
          (x = if (pack ord (hsvToRgb s.config (s.colorAt i))).getLsbD (23 - k) = true then s.config.oneCode
            else s.config.zeroCode) ∧
          (s.config.oneCode ≠ s.config.zeroCode →
            (CodeProduces s.config x .longHighShortLow ↔
              (pack ord (hsvToRgb s.config (s.colorAt i))).getLsbD (23 - k) = true))
end

