-- ==== Sys2Proof/Laws/Decode.lean ====
section
/-! SUPPORT. Fields read back from a packed word, a word as its fields, and what decoding a word says of it. -/

namespace Sys2Proof

/-! ## The fields of a packed word -/

@[simp] theorem fieldOp_packFields (op : Opcode) (ord : BitVec 2) (idx : BitVec 16) (data : BitVec 32) :
    fieldOp (packFields op ord idx data) = op.byte := by
  show BitVec.extractLsb' 56 8 (op.byte ++ (0 : BitVec 6) ++ ord ++ idx ++ data) = op.byte
  rw [BitVec.extractLsb'_append_eq_of_le (by decide), BitVec.extractLsb'_append_eq_of_le (by decide),
    BitVec.extractLsb'_append_eq_of_le (by decide)]
  exact BitVec.extractLsb'_append_eq_left

@[simp] theorem fieldRsv_packFields (op : Opcode) (ord : BitVec 2) (idx : BitVec 16) (data : BitVec 32) :
    fieldRsv (packFields op ord idx data) = 0 := by
  show BitVec.extractLsb' 50 6 (op.byte ++ (0 : BitVec 6) ++ ord ++ idx ++ data) = 0
  rw [BitVec.extractLsb'_append_eq_of_le (by decide), BitVec.extractLsb'_append_eq_of_le (by decide),
    BitVec.extractLsb'_append_eq_of_le (by decide), BitVec.extractLsb'_append_eq_of_add_le (by decide),
    BitVec.extractLsb'_eq_self]

@[simp] theorem fieldOrd_packFields (op : Opcode) (ord : BitVec 2) (idx : BitVec 16) (data : BitVec 32) :
    fieldOrd (packFields op ord idx data) = ord := by
  show BitVec.extractLsb' 48 2 (op.byte ++ (0 : BitVec 6) ++ ord ++ idx ++ data) = ord
  rw [BitVec.extractLsb'_append_eq_of_le (by decide), BitVec.extractLsb'_append_eq_of_le (by decide),
    BitVec.extractLsb'_append_eq_of_add_le (by decide), BitVec.extractLsb'_eq_self]

@[simp] theorem fieldIdx_packFields (op : Opcode) (ord : BitVec 2) (idx : BitVec 16) (data : BitVec 32) :
    fieldIdx (packFields op ord idx data) = idx := by
  show BitVec.extractLsb' 32 16 (op.byte ++ (0 : BitVec 6) ++ ord ++ idx ++ data) = idx
  rw [BitVec.extractLsb'_append_eq_of_le (by decide), BitVec.extractLsb'_append_eq_of_add_le (by decide),
    BitVec.extractLsb'_eq_self]

@[simp] theorem fieldData_packFields (op : Opcode) (ord : BitVec 2) (idx : BitVec 16) (data : BitVec 32) :
    fieldData (packFields op ord idx data) = data := by
  show BitVec.extractLsb' 0 32 (op.byte ++ (0 : BitVec 6) ++ ord ++ idx ++ data) = data
  rw [BitVec.extractLsb'_append_eq_of_add_le (by decide), BitVec.extractLsb'_eq_self]

/-- A word is its five fields (R66). -/
theorem fields_eq (w : CmdWord) :
    w = (fieldOp w ++ fieldRsv w ++ fieldOrd w ++ fieldIdx w ++ fieldData w : BitVec (8 + 6 + 2 + 16 + 32)) := by
  unfold fieldOp fieldRsv fieldOrd fieldIdx fieldData
  rw [BitVec.extractLsb'_append_extractLsb'_eq_extractLsb' (by decide),
    BitVec.extractLsb'_append_extractLsb'_eq_extractLsb' (by decide),
    BitVec.extractLsb'_append_extractLsb'_eq_extractLsb' (by decide),
    BitVec.extractLsb'_append_extractLsb'_eq_extractLsb' (by decide)]
  exact BitVec.extractLsb'_eq_self.symm

/-- A word with RSV = 0 is packed from its own fields. -/
theorem packFields_fields {w : CmdWord} {op : Opcode} (hop : fieldOp w = op.byte) (hrsv : fieldRsv w = 0) :
    packFields op (fieldOrd w) (fieldIdx w) (fieldData w) = w := by
  conv_rhs => rw [fields_eq w, hop, hrsv]
  rfl

/-! ## The DATA formats -/

@[simp] theorem hsvOfData_dataOfHsv (c : Hsv) : hsvOfData (dataOfHsv c) = c := by
  have hh : BitVec.extractLsb' 16 8 ((0 : BitVec 8) ++ c.h ++ c.s ++ c.v) = c.h := by
    rw [BitVec.extractLsb'_append_eq_of_le (by decide), BitVec.extractLsb'_append_eq_of_le (by decide),
      BitVec.extractLsb'_append_eq_of_add_le (by decide), BitVec.extractLsb'_eq_self]
  have hs : BitVec.extractLsb' 8 8 ((0 : BitVec 8) ++ c.h ++ c.s ++ c.v) = c.s := by
    rw [BitVec.extractLsb'_append_eq_of_le (by decide), BitVec.extractLsb'_append_eq_of_add_le (by decide),
      BitVec.extractLsb'_eq_self]
  have hv : BitVec.extractLsb' 0 8 ((0 : BitVec 8) ++ c.h ++ c.s ++ c.v) = c.v := by
    rw [BitVec.extractLsb'_append_eq_of_add_le (by decide), BitVec.extractLsb'_eq_self]
  show Hsv.mk (BitVec.extractLsb' 16 8 ((0 : BitVec 8) ++ c.h ++ c.s ++ c.v))
    (BitVec.extractLsb' 8 8 ((0 : BitVec 8) ++ c.h ++ c.s ++ c.v))
    (BitVec.extractLsb' 0 8 ((0 : BitVec 8) ++ c.h ++ c.s ++ c.v)) = c
  rw [hh, hs, hv]

@[simp] theorem dataLegal_dataOfHsv (c : Hsv) : Format.hsv.dataLegal (dataOfHsv c) = true := by
  show (BitVec.extractLsb' 24 8 ((0 : BitVec 8) ++ c.h ++ c.s ++ c.v) == 0) = true
  rw [BitVec.extractLsb'_append_eq_of_le (by decide), BitVec.extractLsb'_append_eq_of_le (by decide),
    BitVec.extractLsb'_append_eq_of_le (by decide), BitVec.extractLsb'_eq_self]
  rfl

theorem dataOfHsv_hsvOfData {d : BitVec 32} (h : Format.hsv.dataLegal d = true) : dataOfHsv (hsvOfData d) = d := by
  have h0 : d.extractLsb' 24 8 = 0 := by simpa [Format.dataLegal] using h
  show (0 : BitVec 8) ++ d.extractLsb' 16 8 ++ d.extractLsb' 8 8 ++ d.extractLsb' 0 8 = d
  rw [← h0, BitVec.extractLsb'_append_extractLsb'_eq_extractLsb' (by decide),
    BitVec.extractLsb'_append_extractLsb'_eq_extractLsb' (by decide),
    BitVec.extractLsb'_append_extractLsb'_eq_extractLsb' (by decide)]
  exact BitVec.extractLsb'_eq_self

@[simp] theorem valOfData_dataOfVal (v : BitVec 8) : valOfData (dataOfVal v) = v := by
  show BitVec.extractLsb' 0 8 ((0 : BitVec 24) ++ v) = v
  rw [BitVec.extractLsb'_append_eq_of_add_le (by decide), BitVec.extractLsb'_eq_self]

@[simp] theorem dataLegal_dataOfVal (v : BitVec 8) : Format.val8.dataLegal (dataOfVal v) = true := by
  show (BitVec.extractLsb' 8 24 ((0 : BitVec 24) ++ v) == 0) = true
  rw [BitVec.extractLsb'_append_eq_of_le (by decide), BitVec.extractLsb'_eq_self]
  rfl

theorem dataOfVal_valOfData {d : BitVec 32} (h : Format.val8.dataLegal d = true) : dataOfVal (valOfData d) = d := by
  have h0 : d.extractLsb' 8 24 = 0 := by simpa [Format.dataLegal] using h
  show (0 : BitVec 24) ++ d.extractLsb' 0 8 = d
  rw [← h0, BitVec.extractLsb'_append_extractLsb'_eq_extractLsb' (by decide)]
  exact BitVec.extractLsb'_eq_self

/-! ## The opcode map -/

@[simp] theorem ofByte_byte (op : Opcode) : Opcode.ofByte op.byte = some op := by
  cases op <;> decide

theorem byte_of_ofByte {b : BitVec 8} {op : Opcode} (h : Opcode.ofByte b = some op) : b = op.byte := by
  have := List.find?_some h
  exact (eq_of_beq this).symm

theorem byte_injective {a b : Opcode} (h : a.byte = b.byte) : a = b := by
  have := ofByte_byte a
  rw [h, ofByte_byte] at this
  exact (Option.some.inj this).symm

@[simp] theorem opcode_buildInstr (op : Opcode) (w : CmdWord) (data : List CmdWord) :
    (buildInstr op w data).opcode = op := by
  cases op <;> rfl

/-! ## What an accepted word says -/

/-- A word decodes exactly when every check of R77 passes, and then to the command its fields name. -/
theorem decodeWord_eq_ok {w : CmdWord} {data : List CmdWord} {i : Instr} :
    decodeWord w data = .ok i ↔
      ∃ op, Opcode.ofByte (fieldOp w) = some op ∧ fieldRsv w = 0 ∧ (op.usesOrd = false → fieldOrd w = 0) ∧
        (op.usesIdx = false → fieldIdx w = 0) ∧ op.format.dataLegal (fieldData w) = true ∧ i = buildInstr op w data := by
  unfold decodeWord
  cases hop : Opcode.ofByte (fieldOp w) with
  | none => simp
  | some op =>
    simp only [Option.some.injEq]
    constructor
    · intro h
      split_ifs at h with h1 h2 h3 h4
      · refine ⟨op, rfl, not_not.mp h1, fun hu => ?_, fun hu => ?_, ?_, (Except.ok.inj h).symm⟩
        · by_contra hne
          exact h2 ⟨hu, hne⟩
        · by_contra hne
          exact h3 ⟨hu, hne⟩
        · exact eq_true_of_ne_false h4
    · rintro ⟨op', rfl, h1, h2, h3, h4, rfl⟩
      have h2' : ¬ (op.usesOrd = false ∧ fieldOrd w ≠ 0) := fun h => h.2 (h2 h.1)
      have h3' : ¬ (op.usesIdx = false ∧ fieldIdx w ≠ 0) := fun h => h.2 (h3 h.1)
      have h4' : ¬ op.format.dataLegal (fieldData w) = false := by simp [h4]
      rw [if_neg (not_not.mpr h1), if_neg h2', if_neg h3', if_neg h4']

@[simp] theorem fieldOp_encodeWord (i : Instr) : fieldOp (encodeWord i) = i.opcode.byte := by
  cases i <;> exact fieldOp_packFields _ _ _ _

end Sys2Proof
end

