-- ==== Sys2Proof/Laws/Memory.lean ====
section
/-! SUPPORT. The laws of a store: read after write, the canonical form, and that canonical stores that read alike are equal. -/

namespace Sys2Proof.Machine

variable {α : Type}

@[simp] theorem Memory.read_nil (z : α) (a : Nat) : Memory.read z [] a = z := rfl

@[simp] theorem Memory.read_erase_same (z : α) (m : Memory α) (a : Nat) :
    Memory.read z (Memory.erase a m) a = z := by
  induction m with
  | nil => rfl
  | cons e rest ih =>
    obtain ⟨k, x⟩ := e
    by_cases h : k = a <;> simp [Memory.erase, Memory.read, h, ih]

theorem Memory.read_erase_other (z : α) (m : Memory α) {a b : Nat} (hab : b ≠ a) :
    Memory.read z (Memory.erase a m) b = Memory.read z m b := by
  induction m with
  | nil => rfl
  | cons e rest ih =>
    obtain ⟨k, x⟩ := e
    by_cases h : k = a
    · have hk : ¬ a = b := fun e => hab e.symm
      simp [Memory.erase, Memory.read, h, ih, hk]
    · simp [Memory.erase, Memory.read, h, ih]

/-- Where no entry stands at `a`, inserting one there changes the read at `a` alone. -/
theorem Memory.read_insert_erase (z : α) (m : Memory α) (a b : Nat) (v : α) :
    Memory.read z (Memory.insert a v (Memory.erase a m)) b = if b = a then v else Memory.read z m b := by
  induction m with
  | nil => simp only [Memory.erase, Memory.insert, Memory.read, eq_comm (a := a)]
  | cons e rest ih =>
    obtain ⟨k, x⟩ := e
    by_cases hk : k = a
    · subst hk
      by_cases hb : b = k
      · simpa [Memory.erase, hb] using ih
      · have hb' : ¬ k = b := fun e => hb e.symm
        simpa [Memory.erase, Memory.read, hb, hb'] using ih
    · by_cases hlt : a < k
      · simp only [Memory.erase, hk, Memory.insert, hlt, if_true, if_false, Memory.read, eq_comm (a := a)]
        by_cases hb : b = a
        · simp [hb]
        · by_cases hkb : k = b
          · simp [hb, hkb]
          · simp [hb, hkb, Memory.read_erase_other z rest hb]
      · simp only [Memory.erase, hk, Memory.insert, hlt, if_false, Memory.read, ih]
        by_cases hkb : k = b
        · subst hkb
          simp [hk]
        · simp [hkb]

variable [DecidableEq α]

/-- Read after write, at the index written and at every other. -/
theorem Memory.read_write (z : α) (m : Memory α) (a b : Nat) (v : α) :
    Memory.read z (Memory.write z m a v) b = if b = a then v else Memory.read z m b := by
  unfold Memory.write
  by_cases hv : v = z
  · by_cases hb : b = a
    · simp [hv, hb]
    · simp [hv, hb, Memory.read_erase_other z m hb]
  · simp [hv, Memory.read_insert_erase]

/-- Read after a range of writes. -/
theorem Memory.read_writeRange (z : α) (m : Memory α) (base : Nat) (f : Nat → α) (count b : Nat) :
    Memory.read z (Memory.writeRange z m base f count) b =
      if base ≤ b ∧ b < base + count then f (b - base) else Memory.read z m b := by
  induction count with
  | zero =>
    have h : ¬ (base ≤ b ∧ b < base) := by omega
    simp [Memory.writeRange, h]
  | succ n ih =>
    rw [Memory.writeRange, Memory.read_write, ih]
    by_cases hb : b = base + n
    · subst hb
      simp
    · by_cases hin : base ≤ b ∧ b < base + n
      · have h' : base ≤ b ∧ b < base + (n + 1) := by omega
        simp [hb, hin, h']
      · have h' : ¬ (base ≤ b ∧ b < base + (n + 1)) := by omega
        simp [hb, hin, h']

/-! ## The canonical form -/

theorem Memory.wfFrom_mono (z : α) {low low' : Nat} (m : Memory α) (h : low' ≤ low)
    (hm : Memory.wfFrom z low m = true) : Memory.wfFrom z low' m = true := by
  cases m with
  | nil => rfl
  | cons e rest =>
    obtain ⟨k, x⟩ := e
    simp only [Memory.wfFrom, Bool.and_eq_true, decide_eq_true_eq] at hm ⊢
    exact ⟨⟨by omega, hm.1.2⟩, hm.2⟩

theorem Memory.wfFrom_erase (z : α) (a : Nat) (m : Memory α) : ∀ low, Memory.wfFrom z low m = true →
    Memory.wfFrom z low (Memory.erase a m) = true := by
  induction m with
  | nil => intro low h; exact h
  | cons e rest ih =>
    obtain ⟨k, x⟩ := e
    intro low h
    simp only [Memory.wfFrom, Bool.and_eq_true, decide_eq_true_eq] at h
    by_cases hk : k = a
    · simp only [Memory.erase, hk, if_true]
      exact ih low (Memory.wfFrom_mono z rest (by omega) h.2)
    · simp only [Memory.erase, hk, if_false, Memory.wfFrom, Bool.and_eq_true, decide_eq_true_eq]
      exact ⟨h.1, ih _ h.2⟩

theorem Memory.wfFrom_insert_erase (z : α) (a : Nat) {v : α} (hv : v ≠ z) (m : Memory α) :
    ∀ low, low ≤ a → Memory.wfFrom z low m = true →
      Memory.wfFrom z low (Memory.insert a v (Memory.erase a m)) = true := by
  induction m with
  | nil =>
    intro low hl _
    simp [Memory.erase, Memory.insert, Memory.wfFrom, hl, hv]
  | cons e rest ih =>
    obtain ⟨k, x⟩ := e
    intro low hl h
    simp only [Memory.wfFrom, Bool.and_eq_true, decide_eq_true_eq] at h
    by_cases hk : k = a
    · simp only [Memory.erase, hk, if_true]
      exact ih low hl (Memory.wfFrom_mono z rest (by omega) h.2)
    · by_cases hlt : a < k
      · simp only [Memory.erase, hk, if_false, Memory.insert, hlt, if_true, Memory.wfFrom, Bool.and_eq_true,
          decide_eq_true_eq]
        exact ⟨⟨hl, hv⟩, ⟨by omega, h.1.2⟩, Memory.wfFrom_erase z a rest _ h.2⟩
      · simp only [Memory.erase, hk, if_false, Memory.insert, hlt, Memory.wfFrom, Bool.and_eq_true, decide_eq_true_eq]
        exact ⟨h.1, ih _ (by omega) h.2⟩

/-- A write keeps the canonical form. -/
theorem Memory.wf_write (z : α) {m : Memory α} (a : Nat) (v : α) (h : Memory.wf z m = true) :
    Memory.wf z (Memory.write z m a v) = true := by
  unfold Memory.write
  by_cases hv : v = z
  · rw [if_pos hv]
    exact Memory.wfFrom_erase z a m 0 h
  · rw [if_neg hv]
    exact Memory.wfFrom_insert_erase z a hv m 0 (Nat.zero_le a) h

/-- A range of writes keeps the canonical form. -/
theorem Memory.wf_writeRange (z : α) {m : Memory α} (base : Nat) (f : Nat → α) (count : Nat)
    (h : Memory.wf z m = true) : Memory.wf z (Memory.writeRange z m base f count) = true := by
  induction count with
  | zero => exact h
  | succ n ih => exact Memory.wf_write z _ _ ih

omit [DecidableEq α] in
theorem Memory.within_erase {n : Nat} (a : Nat) {m : Memory α} (h : Memory.within n m = true) :
    Memory.within n (Memory.erase a m) = true := by
  induction m with
  | nil => exact h
  | cons e rest ih =>
    obtain ⟨k, x⟩ := e
    simp only [Memory.within, List.all_cons, Bool.and_eq_true, decide_eq_true_eq] at h ih
    by_cases hk : k = a
    · simp only [Memory.erase, hk, if_true]
      exact ih h.2
    · simp only [Memory.erase, hk, if_false, Memory.within, List.all_cons, Bool.and_eq_true, decide_eq_true_eq]
      exact ⟨h.1, ih h.2⟩

omit [DecidableEq α] in
theorem Memory.within_insert {n a : Nat} (ha : a < n) (v : α) {m : Memory α} (h : Memory.within n m = true) :
    Memory.within n (Memory.insert a v m) = true := by
  induction m with
  | nil => simp [Memory.insert, Memory.within, ha]
  | cons e rest ih =>
    obtain ⟨k, x⟩ := e
    simp only [Memory.within, List.all_cons, Bool.and_eq_true, decide_eq_true_eq] at h ih
    by_cases hlt : a < k
    · simp only [Memory.insert, hlt, if_true, Memory.within, List.all_cons, Bool.and_eq_true, decide_eq_true_eq]
      exact ⟨ha, h.1, h.2⟩
    · simp only [Memory.insert, hlt, if_false, Memory.within, List.all_cons, Bool.and_eq_true, decide_eq_true_eq]
      exact ⟨h.1, ih h.2⟩

/-- A write to an index of the store lists no index outside it. -/
theorem Memory.within_write (z : α) {n a : Nat} (ha : a < n) (v : α) {m : Memory α}
    (h : Memory.within n m = true) : Memory.within n (Memory.write z m a v) = true := by
  unfold Memory.write
  by_cases hv : v = z
  · rw [if_pos hv]
    exact Memory.within_erase a h
  · rw [if_neg hv]
    exact Memory.within_insert ha v (Memory.within_erase a h)

theorem Memory.within_writeRange (z : α) {n : Nat} {m : Memory α} (base : Nat) (f : Nat → α) (count : Nat)
    (hn : base + count ≤ n) (h : Memory.within n m = true) :
    Memory.within n (Memory.writeRange z m base f count) = true := by
  induction count with
  | zero => exact h
  | succ k ih => exact Memory.within_write z (by omega) _ (ih (by omega))

/-- An index below every listed one reads as `z`. -/
theorem Memory.read_below (z : α) (m : Memory α) : ∀ {low a : Nat}, Memory.wfFrom z low m = true → a < low →
    Memory.read z m a = z := by
  induction m with
  | nil => intro _ _ _ _; rfl
  | cons e rest ih =>
    obtain ⟨k, x⟩ := e
    intro low a h ha
    simp only [Memory.wfFrom, Bool.and_eq_true, decide_eq_true_eq] at h
    have hk : ¬ k = a := by omega
    simp only [Memory.read, hk, if_false]
    exact ih h.2 (by omega)

/-- Canonical stores that read alike are the same data. -/
theorem Memory.ext_of_wfFrom (z : α) (m : Memory α) : ∀ (low : Nat) (m' : Memory α), Memory.wfFrom z low m = true →
    Memory.wfFrom z low m' = true → (∀ a, Memory.read z m a = Memory.read z m' a) → m = m' := by
  induction m with
  | nil =>
    intro low m' _ h' hr
    cases m' with
    | nil => rfl
    | cons e rest =>
      obtain ⟨k, x⟩ := e
      simp only [Memory.wfFrom, Bool.and_eq_true, decide_eq_true_eq] at h'
      have := hr k
      simp only [Memory.read, if_true] at this
      exact absurd this.symm h'.1.2
  | cons e rest ih =>
    obtain ⟨k, x⟩ := e
    intro low m' h h' hr
    cases m' with
    | nil =>
      simp only [Memory.wfFrom, Bool.and_eq_true, decide_eq_true_eq] at h
      have := hr k
      simp only [Memory.read, if_true] at this
      exact absurd this h.1.2
    | cons e' rest' =>
      obtain ⟨k', x'⟩ := e'
      simp only [Memory.wfFrom, Bool.and_eq_true, decide_eq_true_eq] at h h'
      have hkk : k = k' := by
        by_contra hne
        rcases Nat.lt_or_gt_of_ne hne with hlt | hlt
        · have hk := hr k
          have hne' : ¬ k' = k := by omega
          simp only [Memory.read, if_true, hne', if_false] at hk
          rw [Memory.read_below z rest' h'.2 (by omega)] at hk
          exact h.1.2 hk
        · have hk := hr k'
          simp only [Memory.read, if_true, hne, if_false] at hk
          rw [Memory.read_below z rest h.2 (by omega)] at hk
          exact h'.1.2 hk.symm
      subst hkk
      have hx : x = x' := by
        have := hr k
        simpa only [Memory.read, if_true] using this
      subst hx
      have hrest : rest = rest' := by
        refine ih (k + 1) rest' h.2 h'.2 fun a => ?_
        by_cases ha : k = a
        · subst ha
          rw [Memory.read_below z rest h.2 (by omega), Memory.read_below z rest' h'.2 (by omega)]
        · have := hr a
          simpa only [Memory.read, ha, if_false] using this
      rw [hrest]

theorem Memory.ext (z : α) {m m' : Memory α} (h : Memory.wf z m = true) (h' : Memory.wf z m' = true)
    (hr : ∀ a, Memory.read z m a = Memory.read z m' a) : m = m' :=
  Memory.ext_of_wfFrom z m 0 m' h h' hr

omit [DecidableEq α] in
/-- An index outside the store reads as `z`. -/
theorem Memory.read_outside (z : α) {n a : Nat} (ha : n ≤ a) {m : Memory α} (h : Memory.within n m = true) :
    Memory.read z m a = z := by
  induction m with
  | nil => rfl
  | cons e rest ih =>
    obtain ⟨k, x⟩ := e
    simp only [Memory.within, List.all_cons, Bool.and_eq_true, decide_eq_true_eq] at h ih
    have hk : ¬ k = a := by omega
    simp only [Memory.read, hk, if_false]
    exact ih h.2

end Sys2Proof.Machine
end

