-- ==== Sys2Proof/Laws/State.lean ====
section
/-! SUPPORT. What each update of State does to each field: one lemma per field per update, so that no proof unfolds one. -/

namespace Sys2Proof.Machine

/-! ## raiseFault -/

@[simp] theorem raiseFault_config (cause : Cause) (w : CmdWord) (s : State) :
    (raiseFault cause w s).config = s.config := rfl
@[simp] theorem raiseFault_color (cause : Cause) (w : CmdWord) (s : State) :
    (raiseFault cause w s).color = s.color := rfl
@[simp] theorem raiseFault_tbuf (cause : Cause) (w : CmdWord) (s : State) :
    (raiseFault cause w s).tbuf = s.tbuf := rfl
@[simp] theorem raiseFault_target (cause : Cause) (w : CmdWord) (s : State) :
    (raiseFault cause w s).target = s.target := rfl
@[simp] theorem raiseFault_cfg (cause : Cause) (w : CmdWord) (s : State) :
    (raiseFault cause w s).cfg = s.cfg := rfl
@[simp] theorem raiseFault_init (cause : Cause) (w : CmdWord) (s : State) :
    (raiseFault cause w s).init = s.init := rfl
@[simp] theorem raiseFault_busy (cause : Cause) (w : CmdWord) (s : State) :
    (raiseFault cause w s).busy = s.busy := rfl
@[simp] theorem raiseFault_result (cause : Cause) (w : CmdWord) (s : State) :
    (raiseFault cause w s).result = s.result := rfl
@[simp] theorem raiseFault_fault (cause : Cause) (w : CmdWord) (s : State) :
    (raiseFault cause w s).fault = true := rfl
@[simp] theorem raiseFault_fcause (cause : Cause) (w : CmdWord) (s : State) :
    (raiseFault cause w s).fcause = cause.code := rfl
@[simp] theorem raiseFault_fcmd (cause : Cause) (w : CmdWord) (s : State) :
    (raiseFault cause w s).fcmd = w := rfl
@[simp] theorem raiseFault_dmaActive (cause : Cause) (w : CmdWord) (s : State) :
    (raiseFault cause w s).dmaActive = s.dmaActive := rfl
@[simp] theorem raiseFault_dmaPos (cause : Cause) (w : CmdWord) (s : State) :
    (raiseFault cause w s).dmaPos = s.dmaPos := rfl
@[simp] theorem raiseFault_wire (cause : Cause) (w : CmdWord) (s : State) :
    (raiseFault cause w s).wire = s.wire := rfl
@[simp] theorem raiseFault_host (cause : Cause) (w : CmdWord) (s : State) :
    (raiseFault cause w s).host = s.host := rfl
@[simp] theorem raiseFault_hostTail (cause : Cause) (w : CmdWord) (s : State) :
    (raiseFault cause w s).hostTail = s.hostTail := rfl
@[simp] theorem raiseFault_moves (cause : Cause) (w : CmdWord) (s : State) :
    (raiseFault cause w s).moves = s.moves := rfl
@[simp] theorem raiseFault_draws (cause : Cause) (w : CmdWord) (s : State) :
    (raiseFault cause w s).draws = s.draws := rfl
@[simp] theorem raiseFault_dmaWait (cause : Cause) (w : CmdWord) (s : State) :
    (raiseFault cause w s).dmaWait = s.dmaWait := rfl
@[simp] theorem raiseFault_freeCount (cause : Cause) (w : CmdWord) (s : State) :
    (raiseFault cause w s).freeCount = s.freeCount := rfl

/-! ## startTransfer -/

@[simp] theorem startTransfer_config (s : State) :
    (startTransfer s).config = s.config := rfl
@[simp] theorem startTransfer_color (s : State) :
    (startTransfer s).color = s.color := rfl
@[simp] theorem startTransfer_tbuf (s : State) :
    (startTransfer s).tbuf = s.tbuf := rfl
@[simp] theorem startTransfer_target (s : State) :
    (startTransfer s).target = s.target := rfl
@[simp] theorem startTransfer_cfg (s : State) :
    (startTransfer s).cfg = s.cfg := rfl
@[simp] theorem startTransfer_init (s : State) :
    (startTransfer s).init = s.init := rfl
@[simp] theorem startTransfer_busy (s : State) :
    (startTransfer s).busy = true := rfl
@[simp] theorem startTransfer_result (s : State) :
    (startTransfer s).result = s.result := rfl
@[simp] theorem startTransfer_fault (s : State) :
    (startTransfer s).fault = s.fault := rfl
@[simp] theorem startTransfer_fcause (s : State) :
    (startTransfer s).fcause = s.fcause := rfl
@[simp] theorem startTransfer_fcmd (s : State) :
    (startTransfer s).fcmd = s.fcmd := rfl
@[simp] theorem startTransfer_dmaActive (s : State) :
    (startTransfer s).dmaActive = true := rfl
@[simp] theorem startTransfer_dmaPos (s : State) :
    (startTransfer s).dmaPos = 0 := rfl
@[simp] theorem startTransfer_wire (s : State) :
    (startTransfer s).wire = s.wire ++ [⟨[], .inFlight⟩] := rfl
@[simp] theorem startTransfer_host (s : State) :
    (startTransfer s).host = s.host := rfl
@[simp] theorem startTransfer_hostTail (s : State) :
    (startTransfer s).hostTail = s.hostTail := rfl
@[simp] theorem startTransfer_moves (s : State) :
    (startTransfer s).moves = s.moves := rfl
@[simp] theorem startTransfer_draws (s : State) :
    (startTransfer s).draws = s.draws := rfl
@[simp] theorem startTransfer_dmaWait (s : State) :
    (startTransfer s).dmaWait = s.dmaWait := rfl
@[simp] theorem startTransfer_freeCount (s : State) :
    (startTransfer s).freeCount = s.freeCount := rfl

/-! ## encodePass -/

@[simp] theorem encodePass_config (ord : BitVec 2) (s : State) :
    (encodePass ord s).config = s.config := rfl
@[simp] theorem encodePass_color (ord : BitVec 2) (s : State) :
    (encodePass ord s).color = s.color := rfl
@[simp] theorem encodePass_tbuf (ord : BitVec 2) (s : State) :
    (encodePass ord s).tbuf = encodeLeds s.config ord s.color s.tbuf s.config.ledCapacity := rfl
@[simp] theorem encodePass_target (ord : BitVec 2) (s : State) :
    (encodePass ord s).target = s.target := rfl
@[simp] theorem encodePass_cfg (ord : BitVec 2) (s : State) :
    (encodePass ord s).cfg = s.cfg := rfl
@[simp] theorem encodePass_init (ord : BitVec 2) (s : State) :
    (encodePass ord s).init = s.init := rfl
@[simp] theorem encodePass_busy (ord : BitVec 2) (s : State) :
    (encodePass ord s).busy = s.busy := rfl
@[simp] theorem encodePass_result (ord : BitVec 2) (s : State) :
    (encodePass ord s).result = s.result := rfl
@[simp] theorem encodePass_fault (ord : BitVec 2) (s : State) :
    (encodePass ord s).fault = s.fault := rfl
@[simp] theorem encodePass_fcause (ord : BitVec 2) (s : State) :
    (encodePass ord s).fcause = s.fcause := rfl
@[simp] theorem encodePass_fcmd (ord : BitVec 2) (s : State) :
    (encodePass ord s).fcmd = s.fcmd := rfl
@[simp] theorem encodePass_dmaActive (ord : BitVec 2) (s : State) :
    (encodePass ord s).dmaActive = s.dmaActive := rfl
@[simp] theorem encodePass_dmaPos (ord : BitVec 2) (s : State) :
    (encodePass ord s).dmaPos = s.dmaPos := rfl
@[simp] theorem encodePass_wire (ord : BitVec 2) (s : State) :
    (encodePass ord s).wire = s.wire := rfl
@[simp] theorem encodePass_host (ord : BitVec 2) (s : State) :
    (encodePass ord s).host = s.host := rfl
@[simp] theorem encodePass_hostTail (ord : BitVec 2) (s : State) :
    (encodePass ord s).hostTail = s.hostTail := rfl
@[simp] theorem encodePass_moves (ord : BitVec 2) (s : State) :
    (encodePass ord s).moves = s.moves := rfl
@[simp] theorem encodePass_draws (ord : BitVec 2) (s : State) :
    (encodePass ord s).draws = s.draws := rfl
@[simp] theorem encodePass_dmaWait (ord : BitVec 2) (s : State) :
    (encodePass ord s).dmaWait = s.dmaWait := rfl
@[simp] theorem encodePass_freeCount (ord : BitVec 2) (s : State) :
    (encodePass ord s).freeCount = s.freeCount := rfl

/-! ## dmaEmit -/

@[simp] theorem dmaEmit_config (s : State) :
    (dmaEmit s).config = s.config := rfl
@[simp] theorem dmaEmit_color (s : State) :
    (dmaEmit s).color = s.color := rfl
@[simp] theorem dmaEmit_tbuf (s : State) :
    (dmaEmit s).tbuf = s.tbuf := rfl
@[simp] theorem dmaEmit_target (s : State) :
    (dmaEmit s).target = s.target := rfl
@[simp] theorem dmaEmit_cfg (s : State) :
    (dmaEmit s).cfg = s.cfg := rfl
@[simp] theorem dmaEmit_init (s : State) :
    (dmaEmit s).init = s.init := rfl
@[simp] theorem dmaEmit_busy (s : State) :
    (dmaEmit s).busy = s.busy := rfl
@[simp] theorem dmaEmit_result (s : State) :
    (dmaEmit s).result = s.result := rfl
@[simp] theorem dmaEmit_fault (s : State) :
    (dmaEmit s).fault = s.fault := rfl
@[simp] theorem dmaEmit_fcause (s : State) :
    (dmaEmit s).fcause = s.fcause := rfl
@[simp] theorem dmaEmit_fcmd (s : State) :
    (dmaEmit s).fcmd = s.fcmd := rfl
@[simp] theorem dmaEmit_dmaActive (s : State) :
    (dmaEmit s).dmaActive = s.dmaActive := rfl
@[simp] theorem dmaEmit_dmaPos (s : State) :
    (dmaEmit s).dmaPos = s.dmaPos + 1 := rfl
@[simp] theorem dmaEmit_wire (s : State) :
    (dmaEmit s).wire = s.wire.map (Frame.emit (s.slotAt s.dmaPos)) := rfl
@[simp] theorem dmaEmit_host (s : State) :
    (dmaEmit s).host = s.host := rfl
@[simp] theorem dmaEmit_hostTail (s : State) :
    (dmaEmit s).hostTail = s.hostTail := rfl
@[simp] theorem dmaEmit_moves (s : State) :
    (dmaEmit s).moves = s.moves := rfl
@[simp] theorem dmaEmit_draws (s : State) :
    (dmaEmit s).draws = s.draws := rfl
@[simp] theorem dmaEmit_dmaWait (s : State) :
    (dmaEmit s).dmaWait = s.dmaWait := rfl
@[simp] theorem dmaEmit_freeCount (s : State) :
    (dmaEmit s).freeCount = s.freeCount := rfl

/-! ## dmaComplete -/

@[simp] theorem dmaComplete_config (s : State) :
    (dmaComplete s).config = s.config := rfl
@[simp] theorem dmaComplete_color (s : State) :
    (dmaComplete s).color = s.color := rfl
@[simp] theorem dmaComplete_tbuf (s : State) :
    (dmaComplete s).tbuf = s.tbuf := rfl
@[simp] theorem dmaComplete_target (s : State) :
    (dmaComplete s).target = s.target := rfl
@[simp] theorem dmaComplete_cfg (s : State) :
    (dmaComplete s).cfg = s.cfg := rfl
@[simp] theorem dmaComplete_init (s : State) :
    (dmaComplete s).init = s.init := rfl
@[simp] theorem dmaComplete_busy (s : State) :
    (dmaComplete s).busy = false := rfl
@[simp] theorem dmaComplete_result (s : State) :
    (dmaComplete s).result = s.result := rfl
@[simp] theorem dmaComplete_fault (s : State) :
    (dmaComplete s).fault = s.fault := rfl
@[simp] theorem dmaComplete_fcause (s : State) :
    (dmaComplete s).fcause = s.fcause := rfl
@[simp] theorem dmaComplete_fcmd (s : State) :
    (dmaComplete s).fcmd = s.fcmd := rfl
@[simp] theorem dmaComplete_dmaActive (s : State) :
    (dmaComplete s).dmaActive = false := rfl
@[simp] theorem dmaComplete_dmaPos (s : State) :
    (dmaComplete s).dmaPos = 0 := rfl
@[simp] theorem dmaComplete_wire (s : State) :
    (dmaComplete s).wire = s.wire.map Frame.close := rfl
@[simp] theorem dmaComplete_host (s : State) :
    (dmaComplete s).host = s.host := rfl
@[simp] theorem dmaComplete_hostTail (s : State) :
    (dmaComplete s).hostTail = s.hostTail := rfl
@[simp] theorem dmaComplete_moves (s : State) :
    (dmaComplete s).moves = s.moves := rfl
@[simp] theorem dmaComplete_draws (s : State) :
    (dmaComplete s).draws = s.draws := rfl
@[simp] theorem dmaComplete_dmaWait (s : State) :
    (dmaComplete s).dmaWait = s.dmaWait := rfl
@[simp] theorem dmaComplete_freeCount (s : State) :
    (dmaComplete s).freeCount = s.freeCount := rfl

/-! ## writeColor -/

@[simp] theorem writeColor_config (s : State) (i : Nat) (c : Hsv) :
    (s.writeColor i c).config = s.config := rfl
@[simp] theorem writeColor_color (s : State) (i : Nat) (c : Hsv) :
    (s.writeColor i c).color = Memory.write Hsv.black s.color i c := rfl
@[simp] theorem writeColor_tbuf (s : State) (i : Nat) (c : Hsv) :
    (s.writeColor i c).tbuf = s.tbuf := rfl
@[simp] theorem writeColor_target (s : State) (i : Nat) (c : Hsv) :
    (s.writeColor i c).target = s.target := rfl
@[simp] theorem writeColor_cfg (s : State) (i : Nat) (c : Hsv) :
    (s.writeColor i c).cfg = s.cfg := rfl
@[simp] theorem writeColor_init (s : State) (i : Nat) (c : Hsv) :
    (s.writeColor i c).init = s.init := rfl
@[simp] theorem writeColor_busy (s : State) (i : Nat) (c : Hsv) :
    (s.writeColor i c).busy = s.busy := rfl
@[simp] theorem writeColor_result (s : State) (i : Nat) (c : Hsv) :
    (s.writeColor i c).result = s.result := rfl
@[simp] theorem writeColor_fault (s : State) (i : Nat) (c : Hsv) :
    (s.writeColor i c).fault = s.fault := rfl
@[simp] theorem writeColor_fcause (s : State) (i : Nat) (c : Hsv) :
    (s.writeColor i c).fcause = s.fcause := rfl
@[simp] theorem writeColor_fcmd (s : State) (i : Nat) (c : Hsv) :
    (s.writeColor i c).fcmd = s.fcmd := rfl
@[simp] theorem writeColor_dmaActive (s : State) (i : Nat) (c : Hsv) :
    (s.writeColor i c).dmaActive = s.dmaActive := rfl
@[simp] theorem writeColor_dmaPos (s : State) (i : Nat) (c : Hsv) :
    (s.writeColor i c).dmaPos = s.dmaPos := rfl
@[simp] theorem writeColor_wire (s : State) (i : Nat) (c : Hsv) :
    (s.writeColor i c).wire = s.wire := rfl
@[simp] theorem writeColor_host (s : State) (i : Nat) (c : Hsv) :
    (s.writeColor i c).host = s.host := rfl
@[simp] theorem writeColor_hostTail (s : State) (i : Nat) (c : Hsv) :
    (s.writeColor i c).hostTail = s.hostTail := rfl
@[simp] theorem writeColor_moves (s : State) (i : Nat) (c : Hsv) :
    (s.writeColor i c).moves = s.moves := rfl
@[simp] theorem writeColor_draws (s : State) (i : Nat) (c : Hsv) :
    (s.writeColor i c).draws = s.draws := rfl
@[simp] theorem writeColor_dmaWait (s : State) (i : Nat) (c : Hsv) :
    (s.writeColor i c).dmaWait = s.dmaWait := rfl
@[simp] theorem writeColor_freeCount (s : State) (i : Nat) (c : Hsv) :
    (s.writeColor i c).freeCount = s.freeCount := rfl

/-! ## writeColors -/

@[simp] theorem writeColors_config (s : State) (f : Nat → Hsv) :
    (s.writeColors f).config = s.config := rfl
@[simp] theorem writeColors_color (s : State) (f : Nat → Hsv) :
    (s.writeColors f).color = Memory.writeRange Hsv.black s.color 0 f s.config.ledCapacity := rfl
@[simp] theorem writeColors_tbuf (s : State) (f : Nat → Hsv) :
    (s.writeColors f).tbuf = s.tbuf := rfl
@[simp] theorem writeColors_target (s : State) (f : Nat → Hsv) :
    (s.writeColors f).target = s.target := rfl
@[simp] theorem writeColors_cfg (s : State) (f : Nat → Hsv) :
    (s.writeColors f).cfg = s.cfg := rfl
@[simp] theorem writeColors_init (s : State) (f : Nat → Hsv) :
    (s.writeColors f).init = s.init := rfl
@[simp] theorem writeColors_busy (s : State) (f : Nat → Hsv) :
    (s.writeColors f).busy = s.busy := rfl
@[simp] theorem writeColors_result (s : State) (f : Nat → Hsv) :
    (s.writeColors f).result = s.result := rfl
@[simp] theorem writeColors_fault (s : State) (f : Nat → Hsv) :
    (s.writeColors f).fault = s.fault := rfl
@[simp] theorem writeColors_fcause (s : State) (f : Nat → Hsv) :
    (s.writeColors f).fcause = s.fcause := rfl
@[simp] theorem writeColors_fcmd (s : State) (f : Nat → Hsv) :
    (s.writeColors f).fcmd = s.fcmd := rfl
@[simp] theorem writeColors_dmaActive (s : State) (f : Nat → Hsv) :
    (s.writeColors f).dmaActive = s.dmaActive := rfl
@[simp] theorem writeColors_dmaPos (s : State) (f : Nat → Hsv) :
    (s.writeColors f).dmaPos = s.dmaPos := rfl
@[simp] theorem writeColors_wire (s : State) (f : Nat → Hsv) :
    (s.writeColors f).wire = s.wire := rfl
@[simp] theorem writeColors_host (s : State) (f : Nat → Hsv) :
    (s.writeColors f).host = s.host := rfl
@[simp] theorem writeColors_hostTail (s : State) (f : Nat → Hsv) :
    (s.writeColors f).hostTail = s.hostTail := rfl
@[simp] theorem writeColors_moves (s : State) (f : Nat → Hsv) :
    (s.writeColors f).moves = s.moves := rfl
@[simp] theorem writeColors_draws (s : State) (f : Nat → Hsv) :
    (s.writeColors f).draws = s.draws := rfl
@[simp] theorem writeColors_dmaWait (s : State) (f : Nat → Hsv) :
    (s.writeColors f).dmaWait = s.dmaWait := rfl
@[simp] theorem writeColors_freeCount (s : State) (f : Nat → Hsv) :
    (s.writeColors f).freeCount = s.freeCount := rfl

/-! ## zeroFillTbuf -/

@[simp] theorem zeroFillTbuf_config (s : State) :
    s.zeroFillTbuf.config = s.config := rfl
@[simp] theorem zeroFillTbuf_color (s : State) :
    s.zeroFillTbuf.color = s.color := rfl
@[simp] theorem zeroFillTbuf_tbuf (s : State) :
    s.zeroFillTbuf.tbuf = Memory.writeRange 0 s.tbuf 0 (fun _ => 0) s.config.bufferLength := rfl
@[simp] theorem zeroFillTbuf_target (s : State) :
    s.zeroFillTbuf.target = s.target := rfl
@[simp] theorem zeroFillTbuf_cfg (s : State) :
    s.zeroFillTbuf.cfg = s.cfg := rfl
@[simp] theorem zeroFillTbuf_init (s : State) :
    s.zeroFillTbuf.init = s.init := rfl
@[simp] theorem zeroFillTbuf_busy (s : State) :
    s.zeroFillTbuf.busy = s.busy := rfl
@[simp] theorem zeroFillTbuf_result (s : State) :
    s.zeroFillTbuf.result = s.result := rfl
@[simp] theorem zeroFillTbuf_fault (s : State) :
    s.zeroFillTbuf.fault = s.fault := rfl
@[simp] theorem zeroFillTbuf_fcause (s : State) :
    s.zeroFillTbuf.fcause = s.fcause := rfl
@[simp] theorem zeroFillTbuf_fcmd (s : State) :
    s.zeroFillTbuf.fcmd = s.fcmd := rfl
@[simp] theorem zeroFillTbuf_dmaActive (s : State) :
    s.zeroFillTbuf.dmaActive = s.dmaActive := rfl
@[simp] theorem zeroFillTbuf_dmaPos (s : State) :
    s.zeroFillTbuf.dmaPos = s.dmaPos := rfl
@[simp] theorem zeroFillTbuf_wire (s : State) :
    s.zeroFillTbuf.wire = s.wire := rfl
@[simp] theorem zeroFillTbuf_host (s : State) :
    s.zeroFillTbuf.host = s.host := rfl
@[simp] theorem zeroFillTbuf_hostTail (s : State) :
    s.zeroFillTbuf.hostTail = s.hostTail := rfl
@[simp] theorem zeroFillTbuf_moves (s : State) :
    s.zeroFillTbuf.moves = s.moves := rfl
@[simp] theorem zeroFillTbuf_draws (s : State) :
    s.zeroFillTbuf.draws = s.draws := rfl
@[simp] theorem zeroFillTbuf_dmaWait (s : State) :
    s.zeroFillTbuf.dmaWait = s.dmaWait := rfl
@[simp] theorem zeroFillTbuf_freeCount (s : State) :
    s.zeroFillTbuf.freeCount = s.freeCount := rfl

/-! ## resetBlock -/

@[simp] theorem resetBlock_config (keepWire : Bool) (s : State) :
    (resetBlock keepWire s).config = s.config := rfl
@[simp] theorem resetBlock_color (keepWire : Bool) (s : State) :
    (resetBlock keepWire s).color = [] := rfl
@[simp] theorem resetBlock_tbuf (keepWire : Bool) (s : State) :
    (resetBlock keepWire s).tbuf = [] := rfl
@[simp] theorem resetBlock_target (keepWire : Bool) (s : State) :
    (resetBlock keepWire s).target = targetNone := rfl
@[simp] theorem resetBlock_cfg (keepWire : Bool) (s : State) :
    (resetBlock keepWire s).cfg = false := rfl
@[simp] theorem resetBlock_init (keepWire : Bool) (s : State) :
    (resetBlock keepWire s).init = false := rfl
@[simp] theorem resetBlock_busy (keepWire : Bool) (s : State) :
    (resetBlock keepWire s).busy = false := rfl
@[simp] theorem resetBlock_result (keepWire : Bool) (s : State) :
    (resetBlock keepWire s).result = 0 := rfl
@[simp] theorem resetBlock_fault (keepWire : Bool) (s : State) :
    (resetBlock keepWire s).fault = false := rfl
@[simp] theorem resetBlock_fcause (keepWire : Bool) (s : State) :
    (resetBlock keepWire s).fcause = 0 := rfl
@[simp] theorem resetBlock_fcmd (keepWire : Bool) (s : State) :
    (resetBlock keepWire s).fcmd = 0 := rfl
@[simp] theorem resetBlock_dmaActive (keepWire : Bool) (s : State) :
    (resetBlock keepWire s).dmaActive = false := rfl
@[simp] theorem resetBlock_dmaPos (keepWire : Bool) (s : State) :
    (resetBlock keepWire s).dmaPos = 0 := rfl
@[simp] theorem resetBlock_wire (keepWire : Bool) (s : State) :
    (resetBlock keepWire s).wire = if keepWire && s.dmaActive then s.wire.map Frame.truncate else [] := rfl
@[simp] theorem resetBlock_host (keepWire : Bool) (s : State) :
    (resetBlock keepWire s).host = s.host := rfl
@[simp] theorem resetBlock_hostTail (keepWire : Bool) (s : State) :
    (resetBlock keepWire s).hostTail = s.hostTail := rfl
@[simp] theorem resetBlock_moves (keepWire : Bool) (s : State) :
    (resetBlock keepWire s).moves = s.moves := rfl
@[simp] theorem resetBlock_draws (keepWire : Bool) (s : State) :
    (resetBlock keepWire s).draws = s.draws := rfl
@[simp] theorem resetBlock_dmaWait (keepWire : Bool) (s : State) :
    (resetBlock keepWire s).dmaWait = none := rfl
@[simp] theorem resetBlock_freeCount (keepWire : Bool) (s : State) :
    (resetBlock keepWire s).freeCount = s.freeCount := rfl

end Sys2Proof.Machine
end

