-- ==== Sys2Proof/Laws/Encoder.lean ====
section
/-! SUPPORT. What the encode pass leaves in the transfer buffer. -/

namespace Sys2Proof.Machine

theorem bufferLength_eq (c : Config) : c.bufferLength = 24 * c.ledCapacity := rfl

/-- hsvToRgb of BLACK (R11, law (c)). -/
@[simp] theorem hsvToRgb_black (c : Config) : hsvToRgb c Hsv.black = Rgb.zero := by
  simp [hsvToRgb]

/-- No bit of packed black is set, in any order (R96, R111). -/
@[simp] theorem pack_zero (ord : BitVec 2) : pack ord Rgb.zero = 0 := by
  unfold pack
  split_ifs <;> rfl

/-- A slot after ENCODELED (R98 to R100). -/
theorem read_encodeLed (c : Config) (ord : BitVec 2) (x : Rgb) (i : Nat) (tbuf : Memory PulseCode) (j : Nat) :
    Memory.read 0 (encodeLed c ord x i tbuf) j =
      if 24 * i ≤ j ∧ j < 24 * i + 24 then codeOf c ((pack ord x).getLsbD (23 - (j - 24 * i)))
      else Memory.read 0 tbuf j :=
  Memory.read_writeRange 0 tbuf (24 * i) (fun k => codeOf c ((pack ord x).getLsbD (23 - k))) 24 j

/-- A slot after the pass over LEDs 0 to `count - 1` (R102): the code of its own bit of its own LED, and nothing else written. -/
theorem read_encodeLeds (c : Config) (ord : BitVec 2) (color : Memory Hsv) (tbuf : Memory PulseCode) (count j : Nat) :
    Memory.read 0 (encodeLeds c ord color tbuf count) j =
      if j < 24 * count then
        codeOf c ((pack ord (hsvToRgb c (Memory.read Hsv.black color (j / 24)))).getLsbD (23 - j % 24))
      else Memory.read 0 tbuf j := by
  induction count with
  | zero => simp [encodeLeds]
  | succ n ih =>
    rw [encodeLeds, read_encodeLed, ih]
    by_cases hn : 24 * n ≤ j ∧ j < 24 * n + 24
    · have hdiv : j / 24 = n := by omega
      have hmod : j - 24 * n = j % 24 := by omega
      rw [if_pos hn, if_pos (by omega), hdiv, hmod]
    · rw [if_neg hn]
      by_cases hj : j < 24 * n
      · rw [if_pos hj, if_pos (by omega)]
      · rw [if_neg hj, if_neg (by omega)]

theorem wf_encodeLeds (c : Config) (ord : BitVec 2) (color : Memory Hsv) {tbuf : Memory PulseCode} (count : Nat)
    (h : Memory.wf 0 tbuf = true) : Memory.wf 0 (encodeLeds c ord color tbuf count) = true := by
  induction count with
  | zero => exact h
  | succ n ih => exact Memory.wf_writeRange 0 _ _ _ ih

theorem within_encodeLeds (c : Config) (ord : BitVec 2) (color : Memory Hsv) {tbuf : Memory PulseCode} {n : Nat}
    (count : Nat) (hn : 24 * count ≤ n) (h : Memory.within n tbuf = true) :
    Memory.within n (encodeLeds c ord color tbuf count) = true := by
  induction count with
  | zero => exact h
  | succ k ih => exact Memory.within_writeRange 0 _ _ _ (by simp only [bitsPerLed]; omega) (ih (by omega))

theorem codeOf_cases (c : Config) (b : Bool) : codeOf c b = c.oneCode ∨ codeOf c b = c.zeroCode := by
  cases b <;> simp [codeOf]

/-- After a pass every slot of the buffer is ONE_CODE or ZERO_CODE (R103). -/
theorem slotAt_encodePass_code (ord : BitVec 2) (s : State) {j : Nat} (hj : j < s.config.bufferLength) :
    (encodePass ord s).slotAt j = s.config.oneCode ∨ (encodePass ord s).slotAt j = s.config.zeroCode := by
  have := read_encodeLeds s.config ord s.color s.tbuf s.config.ledCapacity j
  rw [if_pos (by rw [bufferLength_eq] at hj; exact hj)] at this
  simp only [State.slotAt, encodePass_tbuf, this]
  exact codeOf_cases _ _

end Sys2Proof.Machine
end

