-- ==== Sys2Proof/Laws/PerInstr.lean ====
section
/-! SUPPORT. The round trip of each command's own word: decoding what `encodeWord` writes, with the command's data
words in the data position, gives the command back. -/

namespace Sys2Proof.Laws.WordRoundTrip

def Statement (i : Instr) : Prop := decodeWord (encodeWord i) (dataWords i) = .ok i

theorem setColor (idx : BitVec 16) (c : Hsv) : Statement (.setColor idx c) :=
  decodeWord_eq_ok.mpr ⟨.setColor, by simp [encodeWord], by simp [encodeWord], by simp [encodeWord], by simp [Opcode.usesIdx],
    by simp [encodeWord, Opcode.format], by simp [encodeWord, buildInstr]⟩

theorem getColor (idx : BitVec 16) : Statement (.getColor idx) :=
  decodeWord_eq_ok.mpr ⟨.getColor, by simp [encodeWord], by simp [encodeWord], by simp [encodeWord], by simp [Opcode.usesIdx],
    by simp [encodeWord, Opcode.format, Format.dataLegal], by simp [encodeWord, buildInstr]⟩

theorem setChannel (idx : BitVec 16) (v : Channel) : Statement (.setChannel idx v) :=
  decodeWord_eq_ok.mpr ⟨.setChannel, by simp [encodeWord], by simp [encodeWord], by simp [encodeWord],
    by simp [Opcode.usesIdx], by simp [encodeWord, Opcode.format], by simp [encodeWord, buildInstr]⟩

theorem scaleChannel (idx : BitVec 16) (pct : BitVec 8) : Statement (.scaleChannel idx pct) :=
  decodeWord_eq_ok.mpr ⟨.scaleChannel, by simp [encodeWord], by simp [encodeWord], by simp [encodeWord],
    by simp [Opcode.usesIdx], by simp [encodeWord, Opcode.format], by simp [encodeWord, buildInstr]⟩

theorem fill (c : Hsv) : Statement (.fill c) :=
  decodeWord_eq_ok.mpr ⟨.fill, by simp [encodeWord], by simp [encodeWord], by simp [encodeWord], by simp [encodeWord],
    by simp [encodeWord, Opcode.format], by simp [encodeWord, buildInstr]⟩

theorem fillFrom (data : List CmdWord) : Statement (.fillFrom data) :=
  decodeWord_eq_ok.mpr ⟨.fillFrom, by simp [encodeWord], by simp [encodeWord], by simp [encodeWord], by simp [encodeWord],
    by simp [encodeWord, Opcode.format, Format.dataLegal], by simp [buildInstr, dataWords]⟩

theorem initTarget (target : Target) : Statement (.initTarget target) :=
  decodeWord_eq_ok.mpr ⟨.initTarget, by simp [encodeWord], by simp [encodeWord], by simp [encodeWord],
    by simp [encodeWord], by simp [Opcode.format, Format.dataLegal], by simp [encodeWord, buildInstr]⟩

theorem enable : Statement .enable :=
  decodeWord_eq_ok.mpr ⟨.enable, by simp [encodeWord], by simp [encodeWord], by simp [encodeWord], by simp [encodeWord],
    by simp [encodeWord, Opcode.format, Format.dataLegal], by simp [buildInstr]⟩

theorem isReady : Statement .isReady :=
  decodeWord_eq_ok.mpr ⟨.isReady, by simp [encodeWord], by simp [encodeWord], by simp [encodeWord], by simp [encodeWord],
    by simp [encodeWord, Opcode.format, Format.dataLegal], by simp [buildInstr]⟩

theorem requestUpdate (ord : BitVec 2) : Statement (.requestUpdate ord) :=
  decodeWord_eq_ok.mpr ⟨.requestUpdate, by simp [encodeWord], by simp [encodeWord], by simp [Opcode.usesOrd],
    by simp [encodeWord], by simp [encodeWord, Opcode.format, Format.dataLegal], by simp [encodeWord, buildInstr]⟩

end Sys2Proof.Laws.WordRoundTrip
end

