-- ==== Sys2Proof/Laws/Fetch.lean ====
section
/-! SUPPORT. What decoding a host stream says of it, and what the CMD agent does with it. -/

namespace Sys2Proof

theorem fieldOp_fillFrom (data : List CmdWord) : fieldOp (encodeWord (.fillFrom data)) = Opcode.byte .fillFrom :=
  fieldOp_encodeWord _

/-- The word round trip of every command (LAWS.json, WordRoundTrip). -/
theorem decodeWord_encodeWord (i : Instr) : decodeWord (encodeWord i) (dataWords i) = .ok i := by
  cases i with
  | setColor idx c => exact Laws.WordRoundTrip.setColor idx c
  | getColor idx => exact Laws.WordRoundTrip.getColor idx
  | setChannel idx v => exact Laws.WordRoundTrip.setChannel idx v
  | scaleChannel idx pct => exact Laws.WordRoundTrip.scaleChannel idx pct
  | fill c => exact Laws.WordRoundTrip.fill c
  | fillFrom data => exact Laws.WordRoundTrip.fillFrom data
  | initTarget target => exact Laws.WordRoundTrip.initTarget target
  | enable => exact Laws.WordRoundTrip.enable
  | isReady => exact Laws.WordRoundTrip.isReady
  | requestUpdate ord => exact Laws.WordRoundTrip.requestUpdate ord

/-- What stands in the data position matters to a FILLFROM only. -/
theorem decodeWord_ok_data {w : CmdWord} {data data' : List CmdWord} {i : Instr} (h : decodeWord w data = .ok i)
    (hi : i.opcode ≠ .fillFrom) : decodeWord w data' = .ok i := by
  obtain ⟨op, h1, h2, h3, h4, h5, rfl⟩ := decodeWord_eq_ok.mp h
  refine decodeWord_eq_ok.mpr ⟨op, h1, h2, h3, h4, h5, ?_⟩
  cases op <;> first | rfl | exact absurd rfl hi

/-- The word of an accepted command is its encoding. -/
theorem encodeWord_of_decodeWord {w : CmdWord} {data : List CmdWord} {i : Instr} (h : decodeWord w data = .ok i) :
    encodeWord i = w := by
  obtain ⟨op, h1, h2, h3, h4, h5, rfl⟩ := decodeWord_eq_ok.mp h
  have hop := byte_of_ofByte h1
  have hw := packFields_fields hop h2
  have hnone : op.format = .none → fieldData w = 0 := fun hf => by
    rw [hf] at h5
    simpa [Format.dataLegal] using h5
  cases op with
  | setColor => simpa [buildInstr, encodeWord, dataOfHsv_hsvOfData h5, h3 rfl] using hw
  | getColor => simpa [buildInstr, encodeWord, h3 rfl, hnone rfl] using hw
  | setChannel => simpa [buildInstr, encodeWord, dataOfVal_valOfData h5, h3 rfl] using hw
  | scaleChannel => simpa [buildInstr, encodeWord, dataOfVal_valOfData h5, h3 rfl] using hw
  | fill => simpa [buildInstr, encodeWord, dataOfHsv_hsvOfData h5, h3 rfl, h4 rfl] using hw
  | fillFrom => simpa [buildInstr, encodeWord, h3 rfl, h4 rfl, hnone rfl] using hw
  | initTarget => simpa [buildInstr, encodeWord, h3 rfl, h4 rfl] using hw
  | enable => simpa [buildInstr, encodeWord, h3 rfl, h4 rfl, hnone rfl] using hw
  | isReady => simpa [buildInstr, encodeWord, h3 rfl, h4 rfl, hnone rfl] using hw
  | requestUpdate => simpa [buildInstr, encodeWord, h4 rfl, hnone rfl] using hw

/-- How many data words stand behind the word of a command. -/
theorem dataWordCount_encodeWord {n : Nat} {i : Instr} (h : WellFormed n i = true) :
    dataWordCount n (encodeWord i) = (dataWords i).length := by
  unfold dataWordCount
  rw [fieldOp_encodeWord]
  cases i with
  | fillFrom data =>
    have : data.length = n := by simpa [WellFormed] using h
    simp [Instr.opcode, dataWords, this]
  | setColor | getColor | setChannel | scaleChannel | fill | initTarget | enable | isReady | requestUpdate =>
    simp [Instr.opcode, dataWords, Opcode.byte]

end Sys2Proof
end

