-- ==== Sys2Proof/Laws/Exec.lean ====
section
/-! SUPPORT. What a step can do, said once: `exec` answers one of the states listed by `exec_next_cases`, and an unlisted move is
one of those of `freeMove_cases`. -/

namespace Sys2Proof.Machine

/-- The only thing hardwareInitialize changes is the model's record of its draws (R132). -/
theorem hardwareInitialize_frame (s : State) : (hardwareInitialize s).2 =
    { s with draws := (hardwareInitialize s).2.draws, freeCount := (hardwareInitialize s).2.freeCount } := by
  unfold hardwareInitialize
  split_ifs
  · rfl
  · split <;> rfl

/-- A successful initialization has a target (R132). -/
theorem target_of_hardwareInitialize {s : State} (h : (hardwareInitialize s).1 = true) : s.target ≠ targetNone := by
  intro ht
  simp [hardwareInitialize, ht] at h

theorem execEnable_eq (s : State) : execEnable s =
    if s.init then .next { s with result := 1 }
    else if (hardwareInitialize s).1 then .next (enableSucceeded (hardwareInitialize s).2)
    else .next { (hardwareInitialize s).2 with result := 0 } := by
  unfold execEnable
  split_ifs with h1 h2
  · rfl
  · split
    · rename_i s' hs
      rw [hs]
    · rename_i s' hs
      rw [hs] at h2
      exact absurd h2 (by simp)
  · split
    · rename_i s' hs
      rw [hs] at h2
      exact absurd rfl h2
    · rename_i s' hs
      rw [hs]

/-- COLOR after a command that writes it: canonical and within N where it was (R46). -/
structure ColorKept (s : State) (m : Memory Hsv) : Prop where
  wf : Memory.wf Hsv.black s.color = true → Memory.wf Hsv.black m = true
  within : Memory.within s.config.ledCapacity s.color = true → Memory.within s.config.ledCapacity m = true

theorem ColorKept.write (s : State) {i : Nat} (hi : i < s.config.ledCapacity) (c : Hsv) :
    ColorKept s (s.writeColor i c).color :=
  ⟨Memory.wf_write _ _ _, Memory.within_write _ hi _⟩

theorem ColorKept.writes (s : State) (f : Nat → Hsv) : ColorKept s (s.writeColors f).color :=
  ⟨Memory.wf_writeRange _ _ _ _, Memory.within_writeRange _ _ _ _ (by omega)⟩

/-- Every way a command answers a next state. -/
theorem exec_next_cases {i : Instr} {s t : State} (h : exec i s = .next t) :
    (∃ w, i.opcode ∈ [Opcode.setColor, .getColor, .setChannel, .scaleChannel] ∧ t = raiseFault .indexRange w s) ∨
    (∃ w, i.opcode = .fillFrom ∧ t = raiseFault .badDataWord w s) ∨
    (∃ w, i.opcode = .initTarget ∧ s.busy = true ∧ t = raiseFault .initWhileBusy w s) ∨
    (∃ m, i.opcode ∈ [Opcode.setColor, .setChannel, .scaleChannel, .fill, .fillFrom] ∧ ColorKept s m ∧
      t = { s with color := m }) ∨
    (∃ r, (i.opcode = .getColor ∨ i.opcode = .isReady ∨ (i.opcode = .enable ∧ s.init = true)) ∧
      t = { s with result := r }) ∨
    (∃ target, i.opcode = .initTarget ∧ s.busy = false ∧ t = { s.zeroFillTbuf with target := target, cfg := true }) ∨
    (i.opcode = .enable ∧ s.init = false ∧ (hardwareInitialize s).1 = true ∧
      t = enableSucceeded (hardwareInitialize s).2) ∨
    (i.opcode = .enable ∧ s.init = false ∧ (hardwareInitialize s).1 = false ∧
      t = { (hardwareInitialize s).2 with result := 0 }) ∨
    (i.opcode = .requestUpdate ∧ s.ready = false ∧ t = s) ∨
    (∃ ord, i.opcode = .requestUpdate ∧ s.ready = true ∧ t = startTransfer (encodePass ord s)) := by
  cases i with
  | setColor idx c =>
    simp only [exec, execSetColor] at h
    split_ifs at h with hi <;> cases h
    · exact .inr (.inr (.inr (.inl ⟨_, by simp [Instr.opcode], .write s (of_decide_eq_true hi) c, rfl⟩)))
    · exact .inl ⟨_, by simp [Instr.opcode], rfl⟩
  | getColor idx =>
    simp only [exec, execGetColor] at h
    split_ifs at h with hi <;> cases h
    · exact .inr (.inr (.inr (.inr (.inl ⟨_, .inl rfl, rfl⟩))))
    · exact .inl ⟨_, by simp [Instr.opcode], rfl⟩
  | setChannel idx v =>
    simp only [exec, execSetChannel] at h
    split_ifs at h with hi <;> cases h
    · exact .inr (.inr (.inr (.inl ⟨_, by simp [Instr.opcode], .write s (of_decide_eq_true hi) _, rfl⟩)))
    · exact .inl ⟨_, by simp [Instr.opcode], rfl⟩
  | scaleChannel idx pct =>
    simp only [exec, execScaleChannel] at h
    split_ifs at h with hi <;> cases h
    · exact .inr (.inr (.inr (.inl ⟨_, by simp [Instr.opcode], .write s (of_decide_eq_true hi) _, rfl⟩)))
    · exact .inl ⟨_, by simp [Instr.opcode], rfl⟩
  | fill c =>
    cases h
    exact .inr (.inr (.inr (.inl ⟨_, by simp [Instr.opcode], .writes s _, rfl⟩)))
  | fillFrom data =>
    simp only [exec, execFillFrom] at h
    split_ifs at h with hl
    split at h <;> cases h
    · exact .inr (.inl ⟨_, rfl, rfl⟩)
    · exact .inr (.inr (.inr (.inl ⟨_, by simp [Instr.opcode], .writes s _, rfl⟩)))
  | initTarget target =>
    simp only [exec, execInitTarget] at h
    split_ifs at h with hb <;> cases h
    · exact .inr (.inr (.inl ⟨_, rfl, hb, rfl⟩))
    · exact .inr (.inr (.inr (.inr (.inr (.inl ⟨_, rfl, eq_false_of_ne_true hb, rfl⟩)))))
  | enable =>
    simp only [exec, execEnable_eq] at h
    split_ifs at h with h1 h2 <;> cases h
    · exact .inr (.inr (.inr (.inr (.inl ⟨_, .inr (.inr ⟨rfl, h1⟩), rfl⟩))))
    · exact .inr (.inr (.inr (.inr (.inr (.inr (.inl ⟨rfl, eq_false_of_ne_true h1, h2, rfl⟩))))))
    · exact .inr (.inr (.inr (.inr (.inr (.inr (.inr (.inl
        ⟨rfl, eq_false_of_ne_true h1, eq_false_of_ne_true h2, rfl⟩)))))))
  | isReady =>
    cases h
    exact .inr (.inr (.inr (.inr (.inl ⟨_, .inr (.inl rfl), rfl⟩))))
  | requestUpdate ord =>
    simp only [exec, execRequestUpdate] at h
    split_ifs at h with hr <;> cases h
    · exact .inr (.inr (.inr (.inr (.inr (.inr (.inr (.inr (.inr ⟨_, rfl, hr, rfl⟩))))))))
    · exact .inr (.inr (.inr (.inr (.inr (.inr (.inr (.inr (.inl ⟨rfl, eq_false_of_ne_true hr, rfl⟩))))))))

/-- The state a successful ENABLE leaves, field by field (R111). -/
theorem enableSucceeded_eq (s : State) : enableSucceeded s =
    { s with
      color := (s.writeColors fun _ => Hsv.black).color
      tbuf := encodeLeds s.config 0b01 (s.writeColors fun _ => Hsv.black).color s.tbuf s.config.ledCapacity
      init := true, busy := true, dmaActive := true, dmaPos := 0, result := 1
      wire := s.wire ++ [⟨[], .inFlight⟩] } := rfl

/-- What a step of the CMD agent can be. -/
theorem cmdStep_next_cases {s t : State} (h : cmdStep s = .next t) :
    s.fault = false ∧
      ((∃ w why rest, decode s.config.ledCapacity s.host = .illegal w why rest ∧
          t = raiseFault .illegalCommand w { s with host := rest }) ∨
        ∃ i rest, decode s.config.ledCapacity s.host = .command i rest ∧ exec i { s with host := rest } = .next t) := by
  unfold cmdStep at h
  split_ifs at h with hf
  refine ⟨eq_false_of_ne_true hf, ?_⟩
  split at h
  · cases h
  · cases h
  · rename_i w why rest hd
    cases h
    exact .inl ⟨w, why, rest, hd, rfl⟩
  · rename_i i rest hd
    exact .inr ⟨i, rest, hd, h⟩

/-- What a step of the DMA agent can be (R133, R134). -/
theorem dmaStep_next_cases {s t : State} (h : dmaStep s = .next t) :
    s.dmaActive = true ∧ ((s.dmaPos < s.config.bufferLength ∧ t = dmaEmit s) ∨
      (s.dmaPos = s.config.bufferLength ∧ t = dmaComplete s)) := by
  unfold dmaStep dmaEnabled at h
  split_ifs at h with he hp <;> cases h <;> simp only [Bool.and_eq_true, decide_eq_true_eq] at he
  · exact ⟨he.1, .inl ⟨hp, rfl⟩⟩
  · exact ⟨he.1, .inr ⟨by omega, rfl⟩⟩

/-! ## The next move -/

/-- What CMD's side can do by itself: a step of the enabled CMD agent, or the host's next word where CMD lacks one. -/
theorem freeCmdMove_cases {s : State} {p : Move × State} (h : freeCmdMove s = some p) :
    (p = (.cmd, s) ∧ cmdEnabled s = true) ∨
      ∃ w tail, p = (.supply w, { s with hostTail := tail }) ∧ s.hostTail.pop s.freeCount = some (w, tail) := by
  unfold freeCmdMove at h
  split_ifs at h with hf
  have hf' : s.fault = false := eq_false_of_ne_true hf
  split at h
  · split at h
    · cases h
    · rename_i w tail hp
      cases h
      exact .inr ⟨w, tail, rfl, hp⟩
  · split at h
    · cases h
    · rename_i w tail hp
      cases h
      exact .inr ⟨w, tail, rfl, hp⟩
  · rename_i hd
    cases h
    exact .inl ⟨rfl, by simp [cmdEnabled, hf', hd]⟩
  · rename_i hd
    cases h
    exact .inl ⟨rfl, by simp [cmdEnabled, hf', hd]⟩

/-- Every way an unlisted move is chosen. -/
theorem freeMove_cases (s : State) :
    (dmaEnabled s = true ∧ freeMove s = (.dma, { s with dmaWait := none })) ∨
    (dmaEnabled s = true ∧ freeCmdMove s = none ∧ s.config.dmaFair = false ∧ freeMove s = (.hold, s)) ∨
    (∃ p, freeCmdMove s = some p ∧ dmaEnabled s = false ∧ freeMove s = p) ∨
    (∃ p, freeCmdMove s = some p ∧ dmaEnabled s = true ∧ (s.config.dmaFair = true → 0 < dmaPatience s) ∧
      freeMove s = (p.1, { p.2 with dmaWait := some (dmaPatience s - 1) })) ∨
    (dmaEnabled s = false ∧ freeCmdMove s = none ∧ freeMove s = (.cmd, s)) := by
  unfold freeMove
  split
  · rename_i m s' hd hc
    split_ifs with ht
    · exact .inl ⟨hd, rfl⟩
    · refine .inr (.inr (.inr (.inl ⟨(m, s'), hc, hd, fun hf => ?_, rfl⟩)))
      rw [Bool.or_eq_true, not_or, Bool.and_eq_true, hf] at ht
      exact Nat.pos_of_ne_zero fun h0 => ht.1 ⟨rfl, by simp [h0]⟩
  · rename_i hd hc
    split_ifs with ht
    · exact .inl ⟨hd, rfl⟩
    · rw [Bool.or_eq_true, not_or] at ht
      exact .inr (.inl ⟨hd, hc, eq_false_of_ne_true ht.1, rfl⟩)
  · rename_i m hd hc
    exact .inr (.inr (.inl ⟨m, hc, hd, rfl⟩))
  · rename_i hd hc
    exact .inr (.inr (.inr (.inr ⟨hd, hc, rfl⟩)))

/-- The choice of an unlisted move changes the model's inputs alone, and it is no reset. -/
theorem freeMove_frame (s : State) :
    (freeMove s).2 = { s with hostTail := (freeMove s).2.hostTail, dmaWait := (freeMove s).2.dmaWait } ∧
      ∀ keepWire, (freeMove s).1 ≠ .reset keepWire := by
  have hcmd : ∀ p, freeCmdMove s = some p →
      p.2 = { s with hostTail := p.2.hostTail } ∧ ∀ keepWire, p.1 ≠ .reset keepWire := fun p hp => by
    obtain ⟨rfl, -⟩ | ⟨w, tail, rfl, -⟩ := freeCmdMove_cases hp
    · exact ⟨rfl, fun _ h => by cases h⟩
    · exact ⟨rfl, fun _ h => by cases h⟩
  obtain ⟨-, h⟩ | ⟨-, -, -, h⟩ | ⟨p, hp, -, h⟩ | ⟨p, hp, -, -, h⟩ | ⟨-, -, h⟩ := freeMove_cases s
  · rw [h]
    exact ⟨rfl, fun _ h => by cases h⟩
  · rw [h]
    exact ⟨rfl, fun _ h => by cases h⟩
  · rw [h]
    exact ⟨by rw [(hcmd p hp).1], (hcmd p hp).2⟩
  · rw [h]
    exact ⟨by rw [(hcmd p hp).1], (hcmd p hp).2⟩
  · rw [h]
    exact ⟨rfl, fun _ h => by cases h⟩

/-- The state the next move is made in differs from the state before by the inputs used alone. -/
theorem nextMove_frame (s : State) : (nextMove s).2 =
    { s with moves := (nextMove s).2.moves, hostTail := (nextMove s).2.hostTail, dmaWait := (nextMove s).2.dmaWait,
             freeCount := (nextMove s).2.freeCount } := by
  unfold nextMove
  split
  · rfl
  · rw [(freeMove_frame s).1]

/-- Only a listed move is a reset. -/
theorem moves_of_nextMove_reset {s : State} {keepWire : Bool} (h : (nextMove s).1 = .reset keepWire) :
    ∃ ms, s.moves = .reset keepWire :: ms := by
  unfold nextMove at h
  split at h
  · rename_i m ms hm
    cases h
    exact ⟨ms, hm⟩
  · exact absurd h ((freeMove_frame s).2 keepWire)

end Sys2Proof.Machine
end

