-- ==== Sys2Proof/Laws/Wire.lean ====
section
/-! SUPPORT. WIRE as a list of frames of which only the last can be open, a run of the machine one step at a time, and the
invariant as blind to the inputs. -/

namespace Sys2Proof.Machine

/-! ## A frame that is not open -/

theorem Frame.emit_of_not_open (x : PulseCode) {f : Frame} (h : f.status ≠ .inFlight) : f.emit x = f := by
  cases f with
  | mk codes status => cases status <;> first | rfl | exact absurd rfl h

theorem Frame.close_of_not_open {f : Frame} (h : f.status ≠ .inFlight) : f.close = f := by
  cases f with
  | mk codes status => cases status <;> first | rfl | exact absurd rfl h

theorem Frame.truncate_of_not_open {f : Frame} (h : f.status ≠ .inFlight) : f.truncate = f := by
  cases f with
  | mk codes status => cases status <;> first | rfl | exact absurd rfl h

/-! ## WIRE with one open frame, the last -/

/-- An operation that leaves every frame that is not open alone acts on the last frame only. -/
theorem map_last_open {g : Frame → Frame} (hg : ∀ f : Frame, f.status ≠ .inFlight → g f = f) {done : List Frame}
    (h : ∀ f ∈ done, f.status ≠ .inFlight) (last : Frame) : (done ++ [last]).map g = done ++ [g last] := by
  have : done.map g = done := (List.map_congr_left fun f hf => hg f (h f hf)).trans (List.map_id done)
  simp [this]

/-- The slots emitted once DMA_POS has advanced by one. -/
theorem emitted_succ (s : State) (pos : Nat) :
    (List.range (pos + 1)).map s.slotAt = (List.range pos).map s.slotAt ++ [s.slotAt pos] := by
  simp [List.range_succ]

/-! ## A run -/

theorem core_run_next {k : Nat} {s t : State} (h : step s = .next t) :
    Sys2Proof.core.run (k + 1) s = Sys2Proof.core.run k t := by
  have h' : Sys2Proof.core.step s = .next t := h
  simp only [Host.Core.run, h']

/-! ## The invariant -/

/-- The invariant speaks of the block alone: a state that differs in its inputs and in the model's own fields meets it too. -/
theorem State.Inv.of_inputs {s t : State} (h : s.Inv)
    (ht : t = { s with host := t.host, hostTail := t.hostTail, moves := t.moves, draws := t.draws, dmaWait := t.dmaWait,
                       freeCount := t.freeCount }) : t.Inv := by
  rw [ht]
  exact ⟨h.1, h.2, h.3, h.4, h.5, h.6, h.7, h.8, h.9, h.10, h.11, h.12, h.13, h.14, h.15, h.16, h.17⟩

end Sys2Proof.Machine
end

