-- ==== Sys2Proof/Tests/Slice0.lean ====
section
/-! SUPPORT. Tests on fixed values, their expected results taken from spec/95_test_vectors.md and the rules' examples, and for
every obligation with hypotheses a witness that meets them. -/

namespace Sys2Proof.Tests

open Sys2Proof.Machine

/-! ## Small states -/

/-- A block of `n` LEDs with the premises on hsvToRgb that the vectors name. -/
def config (n : Nat) : Config :=
  { Config.launch with
    ledCapacity := n
    hsvKnown := [(⟨0x00, 0x00, 0xFF⟩, ⟨0xFF, 0x00, 0x00⟩), (⟨0x55, 0x00, 0xFF⟩, ⟨0x00, 0xFF, 0x00⟩)] }

/-- UNINIT, as at reset. -/
def blank (n : Nat) : State := State.resetWith (config n)

/-- CONFIGURED. -/
def configured (n : Nat) : State := { blank n with target := 0x11, cfg := true }

/-- IDLE, without any frame on WIRE. -/
def idle (n : Nat) : State := { configured n with init := true, result := 1 }

/-- BUSY: a black frame of `n` LEDs in flight, `pos` of its codes emitted. -/
def sending (n pos : Nat) : State :=
  { idle n with
    tbuf := (List.range (24 * n)).map fun j => (j, 20)
    busy := true
    dmaActive := true
    dmaPos := pos
    wire := [⟨List.replicate pos 20, .inFlight⟩] }

/-- A faulted block. -/
def faulted : State := { blank 2 with fault := true, fcause := 0x01, fcmd := 0xFF00000000000000 }

/-- The next state, where there is one. -/
def next (o : Host.Outcome State Fault Refusal) : Option State :=
  match o with
  | .next s => some s
  | .fault _ => none
  | .refused _ => none

/-- The codes of LED `i`'s slots as ones and zeros, in slot order. -/
def pattern (i : Nat) (s : State) : List Nat :=
  (List.range 24).map fun k => if s.slotAt (24 * i + k) = 40 then 1 else if s.slotAt (24 * i + k) = 20 then 0 else 2

/-! ## Well-formedness: the one check refuses an ill-formed term -/

theorem test_short_fillFrom_ill_formed : WellFormed 2 (.fillFrom [0]) = false := by decide

theorem test_long_fillFrom_ill_formed : WellFormed 2 (.fillFrom [0, 0, 0]) = false := by decide

theorem test_ill_formed_fillFrom_refused : exec (.fillFrom [0]) (blank 2) = .refused .fillFromLength := rfl

/-! ## Decoding (R66, R75 to R79): words written out bit by bit -/

theorem test_decode_setColor :
    decode 2 [0b00000001_000000_00_0000000000000001_00000000_01010101_00000000_11111111] =
      .command (.setColor 1 ⟨0x55, 0x00, 0xFF⟩) [] := by decide

theorem test_decode_getColor :
    decode 2 [0b00000010_000000_00_1000000000000010_00000000_00000000_00000000_00000000] =
      .command (.getColor 0x8002) [] := by decide

theorem test_decode_setChannel :
    decode 2 [0b00000011_000000_00_0000000000000010_00000000_00000000_00000000_10000001] =
      .command (.setChannel 2 0x81) [] := by decide

theorem test_decode_scaleChannel :
    decode 2 [0b00000100_000000_00_0000000000000001_00000000_00000000_00000000_00110010] =
      .command (.scaleChannel 1 50) [] := by decide

theorem test_decode_fill :
    decode 2 [0b00000101_000000_00_0000000000000000_00000000_00010000_00100000_11001000] =
      .command (.fill ⟨0x10, 0x20, 0xC8⟩) [] := by decide

theorem test_decode_fillFrom :
    decode 2 [0b00000110_000000_00_0000000000000000_00000000_00000000_00000000_00000000,
      0b00000000_000000_00_0000000000000000_00000000_00000001_00000010_00000011, 0xFFFFFFFFFFFFFFFF, 0x0900000000000000] =
      .command (.fillFrom [0x0000000000010203, 0xFFFFFFFFFFFFFFFF]) [0x0900000000000000] := by decide

theorem test_decode_initTarget :
    decode 2 [0b00000111_000000_00_0000000000000000_10000000_00000000_00000000_00010001] =
      .command (.initTarget 0x80000011) [] := by decide

theorem test_decode_enable :
    decode 2 [0b00001000_000000_00_0000000000000000_00000000_00000000_00000000_00000000] = .command .enable [] := by
  decide

theorem test_decode_isReady :
    decode 2 [0b00001001_000000_00_0000000000000000_00000000_00000000_00000000_00000000] = .command .isReady [] := by
  decide

theorem test_decode_requestUpdate :
    decode 2 [0b00001010_000000_10_0000000000000000_00000000_00000000_00000000_00000000] =
      .command (.requestUpdate 0b10) [] := by decide

theorem test_decode_rejects_unassigned_opcodes :
    decodeWord 0x0000000000000000 [] = .error .unassignedOpcode ∧
    decodeWord 0x0B00000000000000 [] = .error .unassignedOpcode ∧
    decodeWord 0xFF00000000000000 [] = .error .unassignedOpcode := by decide

theorem test_decode_rejects_unused_fields :
    decodeWord 0x0104000000000000 [] = .error .reservedField ∧ decodeWord 0x0101000000000000 [] = .error .unusedOrder ∧
    decodeWord 0x0500000100000000 [] = .error .unusedIndex ∧
    decodeWord 0x0700000100000000 [] = .error .unusedIndex := by decide

theorem test_decode_rejects_reserved_data :
    decodeWord 0x0100000001000000 [] = .error .reservedData ∧ decodeWord 0x0200000000000001 [] = .error .reservedData ∧
    decodeWord 0x0300000000000100 [] = .error .reservedData ∧
    decodeWord 0x0A00000000000001 [] = .error .reservedData := by decide

/-- No two rows of R76 fit one word: two patterns differ in a bit both masks fix. -/
theorem test_mask_rows_do_not_overlap :
    maskTable.Pairwise fun r r' => r.pattern &&& (r.mask &&& r'.mask) ≠ r'.pattern &&& (r.mask &&& r'.mask) := by decide

theorem test_decodeTableWord :
    decodeTableWord 64 0x0100000000020304 = some (.setColor 0 ⟨2, 3, 4⟩) ∧
    decodeTableWord 64 0x0600000000000000 = some (.fillFrom [0, 0]) ∧
    decodeTableWord 64 0x0100000001020304 = none := by decide

/-! ## The assembler (R83, R84) -/

theorem test_assembleLine :
    assembleLine 2 "SETCOLOR     1, 0x55, 0, 0xFF".toList = some [0x01000001005500FF] ∧
    assembleLine 2 "FILLFROM (1,2,3), (4,5,6)".toList =
      some [0x0600000000000000, 0x0000000000010203, 0x0000000000040506] ∧
    assembleLine 2 "REQUESTUPDATE ORD=3".toList = some [0x0A03000000000000] ∧
    assembleLine 2 "OFF 1".toList = some [0x0100000100000000] := by decide

theorem test_assembleLine_refuses :
    assembleLine 2 "SETCOLOR 1, 256, 0, 0".toList = none ∧ assembleLine 2 "FILLFROM (1,2,3)".toList = none ∧
    assembleLine 2 "REQUESTUPDATE ORD=4".toList = none ∧ assembleLine 2 "GETCOLOR 0x".toList = none := by decide

/-! ## ColorStore commands (95_test_vectors.md 2.2) -/

theorem test_setColor_last_entry :
    (next (exec (.setColor 2 ⟨0xAB, 0xCD, 0xEF⟩) (blank 3))).map (fun t => (t.colorAt 1, t.colorAt 2)) =
      some (⟨0, 0, 0⟩, ⟨0xAB, 0xCD, 0xEF⟩) := by decide

theorem test_setColor_index_fault :
    (next (exec (.setColor 2 ⟨0, 0, 0⟩) (blank 2))).map (fun t => (t.fault, t.fcause, t.fcmd)) =
      some (true, 0x02, 0x0100000200000000) := by decide

theorem test_getColor_result :
    (next (exec (.getColor 2) ((blank 3).writeColor 2 ⟨0xAB, 0xCD, 0xEF⟩))).map (·.result) = some 0x00ABCDEF := by decide

theorem test_getColor_index_fault_keeps_result :
    (next (exec (.getColor 3) { blank 3 with result := 7 })).map (fun t => (t.fcause, t.result)) = some (0x02, 7) := by decide

theorem test_setChannel_keeps_hue :
    (next (exec (.setChannel 2 0x11) ((blank 3).writeColor 2 ⟨0xAB, 0xCD, 0xEF⟩))).map (·.colorAt 2) =
      some ⟨0xAB, 0xCD, 0x11⟩ := by decide

theorem test_scaleChannel_table :
    scaledChannel 200 50 = 100 ∧ scaledChannel 1 99 = 0 ∧ scaledChannel 100 1 = 1 ∧ scaledChannel 3 34 = 1 ∧
    scaledChannel 127 200 = 254 ∧ scaledChannel 128 200 = 0 ∧ scaledChannel 255 101 = 1 ∧
    scaledChannel 255 255 = 138 := by decide

theorem test_scaleChannel_keeps_hue :
    (next (exec (.scaleChannel 1 50) ((blank 3).writeColor 1 ⟨0x10, 0x20, 200⟩))).map (·.colorAt 1) =
      some ⟨0x10, 0x20, 100⟩ := by decide

theorem test_fill_every_entry :
    (next (exec (.fill ⟨0x10, 0x20, 0xC8⟩) (blank 2))).map (·.color) =
      some [(0, ⟨0x10, 0x20, 0xC8⟩), (1, ⟨0x10, 0x20, 0xC8⟩)] := by decide

theorem test_fillFrom_in_order :
    (next (exec (.fillFrom [0x0000000000010203, 0x0000000000040506]) (blank 2))).map (·.color) =
      some [(0, ⟨1, 2, 3⟩), (1, ⟨4, 5, 6⟩)] := by decide

theorem test_fillFrom_bad_second_word :
    (next (exec (.fillFrom [0x0000000000010203, 0x0000000001040506]) (blank 2))).map (fun t => (t.fcause, t.fcmd, t.color)) =
      some (0x04, 0x0000000001040506, []) := by decide

/-! ## The encoder (95_test_vectors.md 2.3) -/

theorem test_pack :
    pack 0b01 ⟨0xA5, 0x5A, 0x01⟩ = 0xA55A01 ∧ pack 0b00 ⟨0xA5, 0x5A, 0x01⟩ = 0x5AA501 ∧
    pack 0b10 ⟨0x80, 0x00, 0x01⟩ = 0x008001 := by decide

theorem test_encodeLed_position :
    pattern 1 { blank 2 with tbuf := encodeLed (config 2) 0b01 ⟨0x80, 0x00, 0x01⟩ 1 [] } =
      [1, 0, 0, 0, 0, 0, 0, 0, 0, 0, 0, 0, 0, 0, 0, 0, 0, 0, 0, 0, 0, 0, 0, 1] := by decide

/-! ## Controller commands (95_test_vectors.md 2.4) -/

theorem test_initTarget_in_idle_keeps_init :
    (next (exec (.initTarget 0x12) (idle 1))).map (fun t => (t.target, t.init, t.statusWord)) = some (0x12, true, 0x0B) := by
  decide

theorem test_initTarget_while_busy_faults :
    (next (exec (.initTarget 0x12) (sending 1 0))).map (fun t => (t.target, t.statusWord)) = some (0x11, 0x337) := by decide

theorem test_enable_starts_black_frame :
    (next (exec .enable { configured 1 with draws := [true] })).map (fun t => (t.result, t.statusWord, pattern 0 t)) =
      some (1, 0x27, List.replicate 24 0) := by decide

theorem test_enable_without_target_fails :
    (next (exec .enable { blank 1 with draws := [true] })).map (fun t => (t.result, t.statusWord, t.draws)) =
      some (0, 0x00, [true]) := by decide

theorem test_isReady_in_idle_and_busy :
    (next (exec .isReady { idle 1 with result := 0 })).map (·.result) = some 1 ∧
    (next (exec .isReady (sending 1 0))).map (·.result) = some 0 := by decide

/-- Scenario S1: red then green, in order GRB. -/
theorem test_requestUpdate_scenario_S1 :
    (next (exec (.requestUpdate 0b00) (((idle 2).writeColor 0 ⟨0x00, 0x00, 0xFF⟩).writeColor 1 ⟨0x55, 0x00, 0xFF⟩))).map
      (fun t => (t.statusWord, pattern 0 t, pattern 1 t)) =
    some (0x27, List.replicate 8 0 ++ List.replicate 8 1 ++ List.replicate 8 0,
      List.replicate 8 1 ++ List.replicate 16 0) := by decide

theorem test_requestUpdate_while_busy_dropped : exec (.requestUpdate 0b01) (sending 2 5) = .next (sending 2 5) := rfl

/-! ## The DMA agent, faults and reset (95_test_vectors.md 2.5, 2.6) -/

theorem test_dma_last_emit_then_complete :
    (next (dmaStep (sending 1 23))).map (fun t => (t.dmaPos, t.busy, t.wire)) =
      some (24, true, [⟨List.replicate 24 20, .inFlight⟩]) ∧
    (next (dmaStep (sending 1 24))).map (fun t => (t.dmaPos, t.statusWord, t.wire)) =
      some (0, 0x0B, [⟨List.replicate 24 20, .closed⟩]) := by decide

theorem test_reset_truncates_open_frame :
    (next (step { sending 1 10 with moves := [.reset true] })).map (fun t => (t.statusWord, t.wire)) =
      some (0, [⟨List.replicate 10 20, .truncated⟩]) := by decide

/-- R146: with no transfer in flight WIRE becomes empty, whatever the observer asks. -/
theorem test_reset_of_idle_block_empties_wire :
    (next (step { idle 1 with wire := [⟨List.replicate 24 20, .closed⟩], moves := [.reset true] })).map (·.wire) =
      some [] := by decide

/-- P3 step 8: a halted block takes no word. -/
theorem test_faulted_block_takes_no_word :
    step { faulted with host := [0x0900000000000000], moves := [.cmd] } = .fault .cmdHalted := rfl

theorem test_fillFrom_waits :
    step { blank 2 with host := [0x0600000000000000, 0x0000000000010203], moves := [.cmd] } =
      .fault .awaitingDataWords := rfl

/-- R82: the length 1 + N is told from OP alone, so an illegal word takes its N data words too (log entry 6). -/
theorem test_illegal_fillFrom_takes_its_data_words :
    (next (cmdStep { blank 2 with host := [0x0600000000000001, 5, 6, 0x0900000000000000] })).map
      (fun t => (t.fcause, t.fcmd, t.host)) = some (0x01, 0x0600000000000001, [0x0900000000000000]) := by decide

/-- R44: an endless stream of two words, ISREADY and ENABLE, hands them out in turn. -/
theorem test_endless_stream_repeats :
    HostTail.pop 0 (.cycle 0x0900000000000000 [0x0800000000000000]) =
      some (0x0900000000000000, .cycle 0x0800000000000000 [0x0900000000000000]) ∧
    HostTail.pop 0 (.cycle 0x0800000000000000 [0x0900000000000000]) =
      some (0x0800000000000000, .cycle 0x0900000000000000 [0x0800000000000000]) := by decide

theorem test_host_writes_next_word_of_its_stream :
    (next (step { blank 2 with hostTail := .cycle 0x0900000000000000 [] })).map (fun t => (t.host, t.hostTail)) =
      some ([0x0900000000000000], .cycle 0x0900000000000000 []) := by decide

theorem test_step_runs_first_word :
    (next (step (State.reset.withFetchWord 64 0x0700000000000011))).map (fun t => (t.target, t.statusWord)) =
      some (0x11, 0x01) := by decide

/-! ## The canonical form of the stores -/

theorem test_reset_stores_canonical :
    Memory.wf Hsv.black State.reset.color = true ∧ Memory.wf 0 State.reset.tbuf = true := by decide

theorem test_writing_black_removes_entry :
    ((blank 2).writeColor 1 ⟨1, 2, 3⟩).writeColor 1 ⟨0, 0, 0⟩ = blank 2 := by decide

/-! ## Witnesses: states and operands that meet the hypotheses of each obligation -/

/-- A slot the store does not list is 0, so a bound on the listed slots bounds every slot. -/
theorem slotAt_of_outside {s : State} {n j : Nat} (h : Memory.within n s.tbuf = true) (hj : n ≤ j) : s.slotAt j = 0 :=
  Memory.read_outside 0 hj h

theorem idle_inv : (idle 1).Inv where
  configWf := by decide
  colorWf := by decide
  colorWithin := by decide
  tbufWf := by decide
  tbufWithin := by decide
  slotWidth _ := (by decide : 0 < 2 ^ 8)
  busyIsActive := rfl
  busyInit h := by cases h
  initCfg _ := rfl
  targetCfg _ := rfl
  posBound := by decide
  posIdle _ := rfl
  noFault _ := ⟨rfl, rfl⟩
  faultCause h := by cases h
  slotsAreCodes h := by cases h
  wireIdle _ f hf := by cases hf
  wireActive h := by cases h

theorem slotAt_sending : ∀ j < 24, (sending 1 0).slotAt j = 20 := by decide

theorem sending_inv (pos : Nat) (hp : pos ≤ 24) : (sending 1 pos).Inv where
  configWf := idle_inv.configWf
  colorWf := idle_inv.colorWf
  colorWithin := idle_inv.colorWithin
  tbufWf := (by decide : Memory.wf 0 (sending 1 0).tbuf = true)
  tbufWithin := (by decide : Memory.within 24 (sending 1 0).tbuf = true)
  slotWidth j := by
    by_cases hj : j < 24
    · exact (slotAt_sending j hj).trans_lt (by decide : 20 < 2 ^ 8)
    · have h0 : (sending 1 0).slotAt j = 0 := slotAt_of_outside (n := 24) (by decide) (by omega)
      exact h0.trans_lt (by decide : 0 < 2 ^ 8)
  busyIsActive := rfl
  busyInit _ := rfl
  initCfg _ := rfl
  targetCfg _ := rfl
  posBound := hp
  posIdle h := by cases h
  noFault _ := ⟨rfl, rfl⟩
  faultCause h := by cases h
  slotsAreCodes _ j hj := .inr (slotAt_sending j hj)
  wireIdle h := by cases h
  wireActive _ := by
    refine ⟨[], ?_, fun f hf => by cases hf⟩
    have : (sending 1 pos).emitted = List.replicate pos 20 := by
      refine List.eq_replicate_iff.mpr ⟨by simp [State.emitted, sending], fun x hx => ?_⟩
      obtain ⟨j, hj, rfl⟩ := List.mem_map.mp hx
      exact slotAt_sending j (lt_of_lt_of_le (List.mem_range.mp hj) hp)
    rw [this]
    rfl

theorem witness_DecodeOfEncodeGivesCommandBack :
    WellFormed 2 (.fillFrom [0, 0xFFFFFFFFFFFFFFFF]) = true ∧ WellFormed 0 (.fillFrom []) = true ∧
    WellFormed 2 (.requestUpdate 0b11) = true := by decide

theorem witness_EncodeOfDecodeGivesWordsBack :
    decode 1 [0x0600000000000000, 0xFFFFFFFFFFFFFFFF, 5] = .command (.fillFrom [0xFFFFFFFFFFFFFFFF]) [5] ∧
    decode 1 [0x0100FFFF00FFFFFF] = .command (.setColor 0xFFFF ⟨0xFF, 0xFF, 0xFF⟩) [] := by decide

theorem witness_DecoderAgreesWithMatchMaskTable :
    (∃ i, decodeWord 0x0A03000000000000 [] = .ok i ∧ i.opcode = .requestUpdate) ∧
    (∃ r ∈ maskTable, r.op = .requestUpdate ∧ 0x0A03000000000000 &&& r.mask = r.pattern) ∧
    dataWordOk 0x0000000000FFFFFF = true ∧ dataWordOk 0x0000000001000000 = false ∧ [0x0000000001000000#64].length = 1 :=
  ⟨⟨.requestUpdate 0b11, by decide, rfl⟩, by decide, by decide, by decide, rfl⟩

theorem witness_UnassignedOpcodeFaults :
    { blank 2 with host := [0x0B00000000000000] }.fault = false ∧
    { blank 2 with host := [0x0B00000000000000] }.host = 0x0B00000000000000 :: [] ∧
    0x0A < ((0x0B00000000000000#64).extractLsb' 56 8).toNat ∧ 0x0A < ((0xFF00000000000000#64).extractLsb' 56 8).toNat ∧
    (0x00FFFFFFFFFFFFFF#64).extractLsb' 56 8 = 0x00 := by decide

/-- One word for each field: RSV, ORD, IDX, and DATA in formats HSV, VAL8 and NONE. -/
theorem witness_NonzeroReservedFieldFaults :
    { blank 2 with host := [0x0204000000000000] }.fault = false ∧
    { blank 2 with host := [0x0204000000000000] }.host = 0x0204000000000000 :: [] ∧
    (0x0204000000000000#64).extractLsb' 56 8 = Opcode.byte .getColor ∧
    (Opcode.getColor = .fillFrom → (blank 2).config.ledCapacity ≤ ([] : List CmdWord).length) ∧
    (0x0204000000000000#64).extractLsb' 50 6 ≠ 0 ∧ (0x0102000000000000#64).extractLsb' 48 2 ≠ 0 ∧
    (0x0500000100000000#64).extractLsb' 32 16 ≠ 0 ∧ (0x0580000080000000#64).extractLsb' 24 8 ≠ 0 ∧
    (0x0300000000000100#64).extractLsb' 8 24 ≠ 0 ∧ (0x0A00000080000000#64).extractLsb' 0 32 ≠ 0 :=
  ⟨rfl, rfl, by decide, by decide, by decide, by decide, by decide, by decide, by decide, by decide⟩

/-- The same for OP = 0x06, whose N data words are there. -/
theorem witness_NonzeroReservedFieldFaults_fillFrom :
    { blank 2 with host := [0x0600000000000001, 0, 0] }.host = 0x0600000000000001 :: [0, 0] ∧
    (0x0600000000000001#64).extractLsb' 56 8 = Opcode.byte .fillFrom ∧
    (Opcode.fillFrom = .fillFrom → (blank 2).config.ledCapacity ≤ [0#64, 0#64].length) ∧
    (0x0600000000000001#64).extractLsb' 0 32 ≠ 0 := by decide

/-- Its second clause: a bad data word in the last position. -/
theorem witness_NonzeroReservedFieldFaults_data :
    { blank 2 with host := [0x0600000000000000, 0x0000000000FFFFFF, 0x0000000001000000] }.host =
      0x0600000000000000 :: ([0x0000000000FFFFFF, 0x0000000001000000] ++ []) ∧
    [0x0000000000FFFFFF#64, 0x0000000001000000].length = (blank 2).config.ledCapacity ∧
    ∃ d ∈ [0x0000000000FFFFFF#64, 0x0000000001000000], d.extractLsb' 32 32 ≠ 0 ∨ d.extractLsb' 24 8 ≠ 0 :=
  ⟨rfl, rfl, 0x0000000001000000, by simp, .inr (by decide)⟩

/-- One word short and exactly enough, for a FILLFROM and for an illegal word with its OP; and a word with another OP. -/
theorem witness_FillFromWaitsForItsDataWords :
    { blank 2 with host := [0x0600000000000000, 0] }.fault = false ∧
    { blank 2 with host := [0x0600000000000000, 0] }.host = 0x0600000000000000 :: [0] ∧
    (0x0600000000000000#64).extractLsb' 56 8 = 0x06 ∧ (0x06FFFFFFFFFFFFFF#64).extractLsb' 56 8 = 0x06 ∧
    [0#64].length < (blank 2).config.ledCapacity ∧ (blank 2).config.ledCapacity ≤ [0#64, 0#64].length ∧
    (0x0700000000000000#64).extractLsb' 56 8 ≠ 0x06 := by decide

/-- A line of each kind with its operands at the top of their ranges. -/
theorem witness_AssemblerAnswersLegalCommands :
    assemble 2 (.setColor 65535 255 255 255) ≠ none ∧ assemble 2 (.getColor 65535) ≠ none ∧
    assemble 2 (.setChannel 65535 255) ≠ none ∧ assemble 2 (.scaleChannel 65535 255) ≠ none ∧
    assemble 2 (.fill 255 255 255) = some (.fill ⟨0xFF, 0xFF, 0xFF⟩) ∧
    assemble 1 (.fillFrom [(255, 0, 255)]) = some (.fillFrom [0x0000000000FF00FF]) ∧
    assemble 2 (.initTarget 0xFFFFFFFF) = some (.initTarget 0xFFFFFFFF) ∧
    assemble 2 (.requestUpdate (.ord 3)) = some (.requestUpdate 0b11) ∧ assemble 2 (.off 65535) ≠ none := by decide

/-- A line of each kind with one operand just above its range. -/
theorem witness_AssemblerAnswersLegalCommands_refusals :
    assemble 2 (.setColor 0 0 0 256) = none ∧ assemble 2 (.getColor 65536) = none ∧ assemble 2 (.setChannel 0 256) = none ∧
    assemble 2 (.scaleChannel 0 256) = none ∧ assemble 2 (.fill 256 0 0) = none ∧
    assemble 1 (.fillFrom [(0, 256, 0)]) = none ∧ assemble 2 (.fillFrom [(1, 2, 3)]) = none ∧
    assemble 2 (.initTarget 0x100000000) = none ∧ assemble 2 (.requestUpdate (.ord 4)) = none ∧
    assemble 2 (.off 65536) = none := by decide

/-- A listed move of CMD, and no move listed with CMD the only enabled agent. -/
theorem witness_StepRunsDecodedCommand :
    { blank 2 with host := [0x0900000000000000], moves := [.cmd] }.fault = false ∧
    decode (blank 2).config.ledCapacity [0x0900000000000000] = .command .isReady [] ∧
    { blank 2 with host := [0x0900000000000000], moves := [.cmd] }.moves = .cmd :: [] ∧
    { blank 2 with host := [0x0900000000000000] }.moves = [] ∧
    dmaEnabled { blank 2 with host := [0x0900000000000000] } = false := by decide

theorem witness_WithFetchWordRunsInstruction :
    State.reset.fault = false ∧
    decode 2 (tableWords 2 64 0x0600000000000000) = .command (.fillFrom [0, 0]) [] ∧
    decode 2 (tableWords 2 64 0x0A03000000000000) = .command (.requestUpdate 0b11) [] := by decide

/-- Both agents enabled, so that the order is open (R130); one list of moves for each kind; and an endless stream. -/
theorem witness_EnabledAgentsTakeSteps :
    cmdEnabled { sending 1 24 with host := [0x0900000000000000] } = true ∧
    dmaEnabled { sending 1 24 with host := [0x0900000000000000] } = true ∧
    { blank 1 with moves := [.supply 0x0900000000000000] }.moves = .supply 0x0900000000000000 :: [] ∧
    { blank 1 with moves := [.hold, .cmd] }.moves = .hold :: [.cmd] ∧
    { blank 1 with moves := [.dma] }.moves = .dma :: [] ∧
    (blank 1).moves = [] ∧ (blank 1).fault = false ∧ { blank 1 with hostTail := .free }.hostTail ≠ .ended := by decide

theorem witness_NoStepChangesConfiguration : step { idle 1 with moves := [.hold] } = .next (idle 1) := rfl

/-- The last index of a block of two LEDs. -/
theorem witness_SetColorStoresItsEntry : (1#16).toNat < (blank 2).config.ledCapacity := by decide

theorem witness_GetColorReadsItsEntry : (65535#16).toNat < (blank 65536).config.ledCapacity := Nat.lt_succ_self 65535

theorem witness_SetChannelKeepsHueAndSaturation : (0#16).toNat < (blank 1).config.ledCapacity := by decide

theorem witness_ScaleChannelTruncatesAndWraps : (2#16).toNat < (blank 3).config.ledCapacity := by decide

theorem witness_FillFromCopiesInIndexOrder :
    [0x0000000000FFFFFF#64, 0x0000000000000000].length = (blank 2).config.ledCapacity ∧
    ∀ d ∈ [0x0000000000FFFFFF#64, 0x0000000000000000], d.extractLsb' 24 40 = 0 :=
  ⟨rfl, by simp⟩

theorem witness_FillFromReportsFirstBadDataWord :
    ([0x0000000000FFFFFF#64] ++ 0x0000000001000000#64 :: [0x8000000000000000#64]).length = (blank 3).config.ledCapacity ∧
    (∀ d ∈ [0x0000000000FFFFFF#64], d.extractLsb' 24 40 = 0) ∧ (0x0000000001000000#64).extractLsb' 24 40 ≠ 0 :=
  ⟨rfl, by simp, by decide⟩

theorem witness_OnlyIllFormedTermsAreRefused :
    WellFormed (blank 2).config.ledCapacity (.fillFrom [0, 0]) = true ∧
    WellFormed (blank 2).config.ledCapacity (.fillFrom [0]) = false := by decide

theorem witness_IndexOutOfRangeFaults :
    decode (blank 2).config.ledCapacity [0x0300000200000000] = .command (.setChannel 2 0) [] ∧
    Instr.opcode (.setChannel 2 0) ∈ [Opcode.setColor, .getColor, .setChannel, .scaleChannel] ∧
    (blank 2).config.ledCapacity ≤ ((0x0300000200000000#64).extractLsb' 32 16).toNat := by decide

theorem witness_ColorStoreAndTheRestStayApart :
    exec (.fill ⟨0, 0, 0⟩) (sending 1 3) = .next (sending 1 3) ∧
    exec (.requestUpdate 0) (sending 1 3) = .next (sending 1 3) ∧
    (next (exec .enable { configured 1 with draws := [true] })).map (·.init) = some true ∧
    (next (dmaStep (sending 1 3))).isSome = true := ⟨rfl, rfl, by decide, by decide⟩

theorem witness_RepeatedWritesLeaveSameState :
    Memory.wf Hsv.black (idle 2).color = true ∧ Memory.wf 0 (idle 2).tbuf = true ∧
    (next (exec (.setColor 1 ⟨1, 2, 3⟩) (idle 2))).isSome = true ∧
    (next (exec (.initTarget 5) (idle 2))).isSome = true := by decide

theorem witness_PackOtherOrdersPlaceGreenFirst : (0b00#2) ≠ 0b01 ∧ (0b11#2) ≠ 0b01 := by decide

theorem witness_EncodeLedWritesExactlyItsSlots :
    23 < 24 ∧ (23 < 24 * 1 ∨ 24 * 1 + 24 ≤ 23) ∧ (48 < 24 * 1 ∨ 24 * 1 + 24 ≤ 48) := by decide

theorem witness_ChannelOrdersSwapRedAndGreen : 0 < 8 ∧ 7 < 8 := by decide

/-- An empty buffer and one full of ZERO_CODE. -/
theorem witness_EncodePassForgetsPriorBuffer :
    Memory.wf 0 (blank 1).tbuf = true ∧ Memory.within (blank 1).config.bufferLength (blank 1).tbuf = true ∧
    Memory.wf 0 (sending 1 0).tbuf = true ∧
    Memory.within (blank 1).config.bufferLength (sending 1 0).tbuf = true := by decide

/-- The second of the two values scenario S1 names. -/
theorem witness_HsvToRgbKeepsBlackLaw :
    (⟨0x55, 0x00, 0xFF⟩ : Hsv) ≠ ⟨0, 0, 0⟩ ∧
    (config 2).hsvKnown = [(⟨0x00, 0x00, 0xFF⟩, ⟨0xFF, 0x00, 0x00⟩)] ++ (⟨0x55, 0x00, 0xFF⟩, ⟨0x00, 0xFF, 0x00⟩) :: [] ∧
    ∀ e ∈ [((⟨0x00, 0x00, 0xFF⟩ : Hsv), (⟨0xFF, 0x00, 0x00⟩ : Rgb))], e.1 ≠ ⟨0x55, 0x00, 0xFF⟩ := by decide

theorem witness_InitializeZeroFillsAndRecordsTarget : (idle 2).busy = false := rfl

theorem witness_InitializeWhileBusyFaults : (sending 1 0).busy = true := rfl

theorem witness_HardwareInitializeDrawsUnderItsLaw :
    (blank 1).target = 0 ∧ (configured 1).target ≠ 0 ∧ { configured 1 with draws := [false] }.draws = false :: [] := by decide

theorem witness_EnableIsIdempotent : (idle 1).init = true ∧ (sending 1 0).init = true := ⟨rfl, rfl⟩

theorem witness_EnableSuccessStartsBlackFrame :
    (configured 1).init = false ∧ (hardwareInitialize { configured 1 with draws := [true] }).1 = true := by decide

theorem witness_EnableFailureChangesOnlyResult :
    (blank 1).init = false ∧ (hardwareInitialize (blank 1)).1 = false ∧
    (hardwareInitialize { configured 1 with draws := [false] }).1 = false := by decide

theorem witness_RequestUpdateNotReadyIsDropped : (configured 1).init = false ∧ (sending 1 24).busy = true := ⟨rfl, rfl⟩

theorem witness_RequestUpdateEncodesAndStarts : (idle 1).init = true ∧ (idle 1).busy = false := ⟨rfl, rfl⟩

theorem witness_UnrecognizedOrderActsAsGrb :
    ((0b10#2) = 0b10 ∨ (0b10#2) = 0b11) ∧ ((0b11#2) = 0b10 ∨ (0b11#2) = 0b11) := by decide

theorem witness_ReadyMeansNextUpdateIsAccepted :
    exec .isReady (idle 1) = .next (idle 1) ∧ (idle 1).result = 1 := ⟨rfl, rfl⟩

/-- One for each cause: an illegal word, an index of N, INITIALIZE while BUSY, and a bad data word after a good one. -/
theorem witness_FaultsArePrecise :
    (sending 1 0).fault = false ∧
    (next (cmdStep { sending 1 0 with host := [0] })).map (fun t => (t.fault, t.fcause, t.fcmd)) = some (true, 0x01, 0) ∧
    (next (cmdStep { sending 1 0 with host := [0x0100000100000000] })).map (fun t => (t.fault, t.fcause, t.fcmd)) =
      some (true, 0x02, 0x0100000100000000) ∧
    (next (cmdStep { sending 1 0 with host := [0x070000000000002B] })).map (fun t => (t.fault, t.fcause, t.fcmd)) =
      some (true, 0x03, 0x070000000000002B) ∧
    (next (cmdStep { blank 2 with host := [0x0600000000000000, 0x0000000000010203, 0x0000000001040506] })).map
      (fun t => (t.fault, t.fcause, t.fcmd)) = some (true, 0x04, 0x0000000001040506) := by decide

/-- One for each cause, and a DMA_EMIT. -/
theorem witness_EachCommandRaisesItsFaultsOnly :
    { blank 2 with host := [0x0200000200000000] }.host = 0x0200000200000000 :: [] ∧
    (next (cmdStep { blank 2 with host := [0x0B00000000000000] })).map (fun t => (t.fault, t.fcause)) = some (true, 0x01) ∧
    (next (cmdStep { blank 2 with host := [0x0200000200000000] })).map (fun t => (t.fault, t.fcause)) = some (true, 0x02) ∧
    (next (cmdStep { blank 1 with host := [0x0600000000000000, 0x0000000001000000] })).map (fun t => (t.fault, t.fcause)) =
      some (true, 0x04) ∧
    (next (cmdStep { sending 1 0 with host := [0x0700000000000000] })).map (fun t => (t.fault, t.fcause)) =
      some (true, 0x03) ∧
    (next (dmaStep (sending 1 0))).isSome = true := by decide

theorem witness_FaultHaltsCommandsNotTransfers :
    { sending 1 24 with fault := true }.fault = true ∧
    (next (dmaStep { { sending 1 24 with fault := true } with fault := false })).isSome = true := by decide

theorem witness_OnlyResetClearsFault :
    faulted.fault = true ∧ (next (step { faulted with moves := [.reset false] })).map (·.fault) = some false ∧
    (next (step { faulted with moves := [.supply 0] })).map (·.fault) = some true := by decide

theorem witness_DmaEmitsNextSlot :
    (sending 1 23).dmaActive = true ∧ (sending 1 23).dmaPos < 24 * (sending 1 23).config.ledCapacity ∧
    (sending 1 23).wire = [] ++ [⟨List.replicate 23 20, .inFlight⟩] ∧
    ∀ f ∈ ([] : List Frame), f.status ≠ .inFlight := by decide

theorem witness_DmaCompleteAloneClearsBusy :
    (sending 1 24).dmaActive = true ∧ (sending 1 24).dmaPos = 24 * (sending 1 24).config.ledCapacity ∧
    (sending 1 24).wire = [] ++ [⟨List.replicate 24 20, .inFlight⟩] ∧
    (next (step { sending 1 24 with moves := [.dma] })).map (·.busy) = some false ∧
    (next (step { sending 1 24 with moves := [.reset true] })).map (·.busy) = some false := by decide

theorem witness_BusySetOnlyByUpdateOrEnable :
    (next (step { idle 1 with host := [0x0A00000000000000], moves := [.cmd] })).map (·.busy) = some true ∧
    (next (step { configured 1 with host := [0x0800000000000000], moves := [.cmd], draws := [true] })).map (·.busy) =
      some true := by decide

theorem witness_CfgAndInitClearedOnlyByReset :
    step { idle 1 with moves := [.hold] } = .next (idle 1) ∧ (idle 1).cfg = true ∧ (idle 1).init = true ∧
    ∀ keepWire, (nextMove { idle 1 with moves := [.hold] }).1 ≠ .reset keepWire := ⟨rfl, rfl, rfl, by decide⟩

/-- A SETCOLOR while BUSY, its target state not reset. -/
theorem witness_NoStepWritesBufferWhileBusy :
    (sending 1 3).Inv ∧ (sending 1 3).busy = true ∧
    (next (step { sending 1 3 with host := [0x0100000000000010], moves := [.cmd] })).map (·.colorAt 0) =
      some ⟨0, 0, 0x10⟩ := ⟨sending_inv 3 (by decide), rfl, by decide⟩

/-- The transition from IDLE to BUSY and the one from BUSY to IDLE. -/
theorem witness_ControllerFollowsTransitionTable :
    (idle 1).Inv ∧ (sending 1 24).Inv ∧
    (next (step { idle 1 with host := [0x0A00000000000000], moves := [.cmd] })).map (·.controller) = some (some .busy) ∧
    (next (step { sending 1 24 with moves := [.dma] })).map (·.controller) = some (some .idle) :=
  ⟨idle_inv, sending_inv 24 (by decide), by decide, by decide⟩

theorem witness_FinalStatesHaveNoAgentStep : (idle 1).final := by decide

theorem witness_ResetOfRunningBlock :
    (sending 1 0).Inv ∧ (sending 1 24).Inv ∧ (idle 1).Inv ∧
    { sending 1 0 with moves := [.reset true] }.moves = .reset true :: [] :=
  ⟨sending_inv 0 (by decide), sending_inv 24 (by decide), idle_inv, rfl⟩

theorem witness_ResetMeetsInvariant : Config.launch.wf ∧ (config 65536).wf := by decide

/-- One step of each kind from a state that meets the invariant: a DMA_EMIT, the DMA_COMPLETE and a reset. -/
theorem witness_StepKeepsInvariant :
    (sending 1 0).Inv ∧ (sending 1 24).Inv ∧ (next (step { sending 1 0 with moves := [.dma] })).isSome = true ∧
    (next (step { sending 1 24 with moves := [.dma] })).isSome = true ∧
    (next (step { sending 1 0 with moves := [.reset true] })).isSome = true :=
  ⟨sending_inv 0 (by decide), sending_inv 24 (by decide), by decide, by decide, by decide⟩

/-- A state past reset: the block after INITIALIZE. -/
theorem witness_ReachableFlagInvariants :
    Reachable { configured 1 with host := [], hostTail := .free, moves := [], draws := [], freeCount := 0 } := by
  have h : Reachable { State.resetWith (config 1) with
      host := [0x0700000000000011], hostTail := .free, moves := [.cmd], draws := [], freeCount := 0 } :=
    .launch (config 1) _ _ _ _ _ (by decide)
  exact .step _ _ h rfl

theorem witness_TransferSendsWholeBuffer :
    (sending 1 0).Inv ∧ (sending 1 24).Inv ∧ (sending 1 24).dmaActive = true ∧
    { sending 1 24 with moves := [.dma] }.moves =
      List.replicate (24 * (sending 1 24).config.ledCapacity - (sending 1 24).dmaPos + 1) Move.dma ++ [] :=
  ⟨sending_inv 0 (by decide), sending_inv 24 (by decide), rfl, by decide⟩

/-- With no command to take and no word to come, and with an endless stream of commands. -/
theorem witness_FairBackendCompletesTransfer :
    (sending 1 7).Inv ∧ (sending 1 7).dmaActive = true ∧ (sending 1 7).config.dmaFair = true ∧ (sending 1 7).moves = [] ∧
    cmdEnabled (sending 1 7) = false ∧ (sending 1 7).hostTail = .ended ∧
    { sending 1 7 with hostTail := .cycle 0x0900000000000000 [] }.Inv ∧
    { sending 1 7 with hostTail := .cycle 0x0900000000000000 [] }.hostTail ≠ .ended :=
  ⟨sending_inv 7 (by decide), rfl, rfl, rfl, by decide, rfl, (sending_inv 7 (by decide)).of_inputs rfl, by decide⟩

theorem witness_AcceptedUpdateReachesTheLine :
    (idle 1).Inv ∧ (idle 1).init = true ∧ (idle 1).busy = false ∧
    { idle 1 with moves := List.replicate 25 .dma }.moves =
      List.replicate (24 * (idle 1).config.ledCapacity + 1) Move.dma ++ [] ∧
    (idle 1).config.oneCode ≠ (idle 1).config.zeroCode := ⟨idle_inv, rfl, rfl, by decide, by decide⟩

end Sys2Proof.Tests
end

section
/-! PROOFS. The statements of 00_scope.md: which command terms are refused (R16), and the law of hsvToRgb (R11). -/

namespace Sys2Proof.Machine

open Host (Outcome)

/-! ## Refused terms (R16, R93) -/

/-- Only a FILLFROM can be an ill-formed term. -/
theorem exists_fillFrom_of_not_wellFormed {n : Nat} {i : Instr} (h : WellFormed n i = false) :
    ∃ data, i = .fillFrom data ∧ data.length ≠ n := by
  cases i with
  | fillFrom data => exact ⟨data, rfl, by simpa [WellFormed] using h⟩
  | setColor | getColor | setChannel | scaleChannel | fill | initTarget | enable | isReady | requestUpdate =>
    simp [WellFormed] at h

/-- A FILLFROM of another length than N is refused (R16). -/
theorem execFillFrom_of_length_ne {s : State} {data : List CmdWord} (h : data.length ≠ s.config.ledCapacity) :
    execFillFrom data s = .refused .fillFromLength := if_neg h

/-- A FILLFROM of N data words completes, bad data words or not (R93). -/
theorem execFillFrom_next {s : State} {data : List CmdWord} (h : data.length = s.config.ledCapacity) :
    ∃ t, execFillFrom data s = .next t := by
  simp only [execFillFrom, if_pos h]
  cases firstBadDataWord data with
  | some d => exact ⟨_, rfl⟩
  | none => exact ⟨_, rfl⟩

/-- ENABLE completes, whatever its draw (R110 to R112). -/
theorem execEnable_next (s : State) : ∃ t, execEnable s = .next t := by
  rw [execEnable_eq]
  split_ifs <;> exact ⟨_, rfl⟩

/-- A well-formed command answers a next state: a fault of the block is one too (R16). -/
theorem exec_next_of_wellFormed {s : State} {i : Instr} (h : WellFormed s.config.ledCapacity i = true) :
    ∃ t, exec i s = .next t := by
  cases i with
  | setColor | getColor | setChannel | scaleChannel | initTarget | requestUpdate =>
    exact ⟨_, (apply_ite Outcome.next _ _ _).symm⟩
  | fillFrom data => exact execFillFrom_next (beq_iff_eq.mp h)
  | enable => exact execEnable_next s
  | fill | isReady => exact ⟨_, rfl⟩

/-- Settles O20: each well-formed command completes case by case, and an ill-formed one is a FILLFROM of another length. -/
theorem onlyIllFormedTermsAreRefused : Obligations.OnlyIllFormedTermsAreRefused := by
  intro s i
  refine ⟨exec_next_of_wellFormed, fun h => ?_⟩
  obtain ⟨data, rfl, hlen⟩ := exists_fillFrom_of_not_wellFormed h
  exact execFillFrom_of_length_ne hlen

/-! ## hsvToRgb (R11, R95) -/

/-- The value of a colour other than BLACK is the one of the first entry that names it. -/
theorem hsvToRgb_of_find? {c : Config} {x : Hsv} {e : Hsv × Rgb} (hx : x ≠ Hsv.black)
    (he : c.hsvKnown.find? (fun e => e.1 == x) = some e) : hsvToRgb c x = e.2 := by
  simp only [hsvToRgb, if_neg hx, he]

/-- Settles O29: an entry for `x` after entries for other colours is the first that names `x`. -/
theorem hsvToRgbKeepsBlackLaw : Obligations.HsvToRgbKeepsBlackLaw := by
  refine ⟨hsvToRgb_black, fun c x y before more hx hknown hbefore => ?_⟩
  have hfind : c.hsvKnown.find? (fun e => e.1 == x) = some (x, y) :=
    List.find?_eq_some_iff_append.mpr ⟨by simp, before, more, hknown, fun e he => by simpa using hbefore e he⟩
  exact hsvToRgb_of_find? hx hfind

end Sys2Proof.Machine
end

section
/-! PROOFS. The statements of 10_state.md about a step: it runs the decoded command (R44, R52), it keeps the configuration
(R42), and CFG and INIT fall by a reset alone (R26, R27). -/

namespace Sys2Proof

/-- The words after a command do not change what it decodes to (R82). -/
theorem decode_append {n : Nat} {ws rest : List CmdWord} {i : Instr} (h : decode n ws = .command i rest)
    (more : List CmdWord) : decode n (ws ++ more) = .command i (rest ++ more) := by
  cases ws with
  | nil => cases h
  | cons w ws =>
    simp only [decode] at h
    split_ifs at h with hlen
    split at h
    · cases h
    · rename_i hdec
      cases h
      have hdec' : decodeWord w ((ws ++ more).take n) = .ok i := by
        by_cases hi : i.opcode = .fillFrom
        · have hop : fieldOp w = Opcode.byte .fillFrom := by
            rw [← encodeWord_of_decodeWord hdec, fieldOp_encodeWord, hi]
          rw [dataWordCount, if_pos hop, not_lt] at hlen
          rwa [List.take_append_of_le_length hlen]
        · exact decodeWord_ok_data hdec hi
      have hlen' : ¬ (ws ++ more).length < dataWordCount n w := by
        rw [List.length_append]
        omega
      rw [List.cons_append, decode, if_neg hlen', hdec', List.drop_append_of_le_length (not_lt.mp hlen)]

end Sys2Proof

namespace Sys2Proof.Machine

/-! ## A step of CMD is exec of the command at the head of the stream (R44, R52) -/

/-- CMD takes the command at the head of the stream and executes it. -/
theorem cmdStep_of_command {s : State} {i : Instr} {rest : List CmdWord} (hf : s.fault = false)
    (hd : decode s.config.ledCapacity s.host = .command i rest) : cmdStep s = exec i { s with host := rest } := by
  simp [cmdStep, hf, hd]

/-- A listed move of CMD is its step. -/
theorem step_of_moves_cmd {s : State} {ms : List Move} (hm : s.moves = .cmd :: ms) :
    step s = cmdStep { s with moves := ms } := by
  simp [step, nextMove, hm, perform]

/-- With a command at the head of the stream and DMA not enabled, CMD moves. -/
theorem freeMove_of_command {s : State} {i : Instr} {rest : List CmdWord} (hf : s.fault = false)
    (hd : decode s.config.ledCapacity s.host = .command i rest) (hdma : dmaEnabled s = false) :
    freeMove s = (.cmd, s) := by
  have hcmd : freeCmdMove s = some (.cmd, s) := by simp [freeCmdMove, hf, hd]
  simp [freeMove, hdma, hcmd]

/-- Settles O9: the next move is CMD's, listed or free (log entry 3), and CMD's step is exec of the command. -/
theorem stepRunsDecodedCommand : Obligations.StepRunsDecodedCommand := by
  refine fun s i rest hf hd => ⟨fun ms hm => ?_, fun hm hdma => ?_⟩
  · rw [step_of_moves_cmd hm]
    exact cmdStep_of_command (s := { s with moves := ms }) hf hd
  · have hnext : nextMove s = (.cmd, { s with freeCount := s.freeCount + 1 }) := by
      simp [nextMove, hm, freeMove_of_command hf hd hdma]
    rw [step, hnext]
    exact cmdStep_of_command (s := { s with freeCount := s.freeCount + 1 }) hf hd

/-- Settles O10: the words placed decode as they do alone, and taking them leaves the state as it was. -/
theorem withFetchWordRunsInstruction : Obligations.WithFetchWordRunsInstruction := by
  intro s nbits w i hf hd
  have hplaced : decode s.config.ledCapacity (tableWords s.config.ledCapacity nbits w ++ s.host) = .command i s.host :=
    decode_append hd s.host
  exact (stepRunsDecodedCommand (s.withFetchWord nbits w) i s.host hf hplaced).1 s.moves rfl

/-! ## What every step but a reset keeps -/

/-- The configuration is kept, and CFG and INIT do not fall (R26, R27, R42). -/
structure SetupKept (s t : State) : Prop where
  config : t.config = s.config
  cfg : s.cfg = true → t.cfg = true
  init : s.init = true → t.init = true

/-- A command, whatever it is, may set CFG or INIT but clears neither (R26, R27). -/
theorem exec_setupKept {i : Instr} {s t : State} (h : exec i s = .next t) : SetupKept s t := by
  obtain ⟨w, -, rfl⟩ | ⟨w, -, rfl⟩ | ⟨w, -, -, rfl⟩ | ⟨m, -, -, rfl⟩ | ⟨r, -, rfl⟩ | ⟨target, -, -, rfl⟩ | ⟨-, -, -, rfl⟩ |
    ⟨-, -, -, rfl⟩ | ⟨-, -, rfl⟩ | ⟨ord, -, -, rfl⟩ := exec_next_cases h
  · exact ⟨rfl, id, id⟩
  · exact ⟨rfl, id, id⟩
  · exact ⟨rfl, id, id⟩
  · exact ⟨rfl, id, id⟩
  · exact ⟨rfl, id, id⟩
  · -- INITIALIZE sets CFG (R108).
    exact ⟨rfl, fun _ => rfl, id⟩
  · -- A successful ENABLE sets INIT (R111).
    rw [hardwareInitialize_frame]
    exact ⟨rfl, id, fun _ => rfl⟩
  · rw [hardwareInitialize_frame]
    exact ⟨rfl, id, id⟩
  · exact ⟨rfl, id, id⟩
  · exact ⟨rfl, id, id⟩

theorem cmdStep_setupKept {s t : State} (h : cmdStep s = .next t) : SetupKept s t := by
  obtain ⟨-, ⟨w, why, rest, -, rfl⟩ | ⟨i, rest, -, hexec⟩⟩ := cmdStep_next_cases h
  · exact ⟨rfl, id, id⟩
  · exact { exec_setupKept hexec with }

theorem dmaStep_setupKept {s t : State} (h : dmaStep s = .next t) : SetupKept s t := by
  obtain ⟨-, ⟨-, rfl⟩ | ⟨-, rfl⟩⟩ := dmaStep_next_cases h
  · exact ⟨rfl, id, id⟩
  · exact ⟨rfl, id, id⟩

theorem perform_setupKept {m : Move} {s t : State} (h : perform m s = .next t) (hm : ∀ keepWire, m ≠ .reset keepWire) :
    SetupKept s t := by
  cases m with
  | cmd => exact cmdStep_setupKept h
  | dma => exact dmaStep_setupKept h
  | supply w =>
    cases h
    exact ⟨rfl, id, id⟩
  | reset keepWire => exact absurd rfl (hm keepWire)
  | hold =>
    cases h
    exact ⟨rfl, id, id⟩

/-- Choosing the next move keeps all of the block (log entry 3). -/
theorem nextMove_setupKept (s : State) : SetupKept s (nextMove s).2 := by
  rw [nextMove_frame]
  exact ⟨rfl, id, id⟩

/-- Settles O12: a reset keeps the configuration by its definition, every other move by `perform_setupKept`. -/
theorem noStepChangesConfiguration : Obligations.NoStepChangesConfiguration := by
  intro s t h
  have hmoved : t.config = (nextMove s).2.config := by
    by_cases hreset : ∃ keepWire, (nextMove s).1 = .reset keepWire
    · obtain ⟨keepWire, hm⟩ := hreset
      rw [step, hm] at h
      cases h
      rfl
    · exact (perform_setupKept h (not_exists.mp hreset)).config
  exact hmoved.trans (nextMove_setupKept s).config

/-- Settles O48: neither the choice of the move nor the move itself clears CFG or INIT. -/
theorem cfgAndInitClearedOnlyByReset : Obligations.CfgAndInitClearedOnlyByReset := by
  intro s t h hm
  have hchoice := nextMove_setupKept s
  have hmove := perform_setupKept h hm
  exact ⟨fun hcfg => hmove.cfg (hchoice.cfg hcfg), fun hinit => hmove.init (hchoice.init hinit)⟩

end Sys2Proof.Machine
end

section
/-! PROOFS. The statements of 10_state.md about the values of the state: at reset (R41), in STATUS (R34), and the invariant
of the block, at reset, over every step and so in every reachable state (R36 to R38). -/

namespace Sys2Proof.Machine

/-! ## Reset values and STATUS (R34, R41) -/

/-- Settles O52: each value is the one `State.resetWith` assigns, and an empty store reads as zero everywhere. -/
theorem resetValues : Obligations.ResetValues := fun _ =>
  ⟨Memory.read_nil Hsv.black, Memory.read_nil 0, rfl, rfl, rfl, rfl, rfl, rfl, rfl, rfl, rfl, rfl, rfl, rfl, rfl⟩

/-- Bit 0 of a word with a flag put below it is the flag. -/
theorem getLsbD_append_flag_zero {n : Nat} (x : BitVec n) (b : Bool) : (x ++ BitVec.ofBool b).getLsbD 0 = b := by
  rw [BitVec.getLsbD_append]
  simp

/-- Every other bit stands one place higher than without the flag. -/
theorem getLsbD_append_flag_succ {n : Nat} (x : BitVec n) (b : Bool) (k : Nat) :
    (x ++ BitVec.ofBool b).getLsbD (k + 1) = x.getLsbD k := by
  simp [BitVec.getLsbD_append]

/-- Bits 0 to 5 of STATUS (R34): the flags below a bit are passed one by one. -/
theorem statusWord_flags (s : State) :
    s.statusWord.getLsbD 0 = s.cfg ∧ s.statusWord.getLsbD 1 = s.init ∧ s.statusWord.getLsbD 2 = s.busy ∧
    s.statusWord.getLsbD 3 = (s.init && !s.busy) ∧ s.statusWord.getLsbD 4 = s.fault ∧
    s.statusWord.getLsbD 5 = s.dmaActive := by
  unfold State.statusWord State.ready
  refine ⟨?_, ?_, ?_, ?_, ?_, ?_⟩
  all_goals
    repeat rw [getLsbD_append_flag_succ]
    rw [getLsbD_append_flag_zero]

/-- Above the six flags stand FCAUSE and the reserved bits around it (R34). -/
theorem statusWord_above_flags (s : State) {k : Nat} (hk : 6 ≤ k) (len : Nat) :
    s.statusWord.extractLsb' k len = ((0 : BitVec 16) ++ s.fcause ++ (0 : BitVec 2)).extractLsb' (k - 6) len := by
  unfold State.statusWord
  iterate 6 rw [BitVec.extractLsb'_append_eq_of_le (by omega)]
  congr 1

theorem statusWord_low_reserved (s : State) : s.statusWord.extractLsb' 6 2 = 0 := by
  rw [statusWord_above_flags s (by decide)]
  exact BitVec.extractLsb'_append_eq_right

theorem statusWord_fcause (s : State) : s.statusWord.extractLsb' 8 8 = s.fcause := by
  rw [statusWord_above_flags s (by decide), BitVec.extractLsb'_append_eq_of_le (by decide),
    BitVec.extractLsb'_append_eq_of_add_le (by decide), BitVec.extractLsb'_eq_self]

theorem statusWord_high_reserved (s : State) : s.statusWord.extractLsb' 16 16 = 0 := by
  rw [statusWord_above_flags s (by decide), BitVec.extractLsb'_append_eq_of_le (by decide)]
  exact BitVec.extractLsb'_append_eq_left

/-- Settles O54: the flags bit by bit, the fields above them as parts of the concatenation. -/
theorem statusShowsItsFields : Obligations.StatusShowsItsFields := by
  refine ⟨fun s => ?_, fun c => by simp [State.statusWord, State.resetWith, State.ready]⟩
  obtain ⟨hcfg, hinit, hbusy, hready, hfault, hactive⟩ := statusWord_flags s
  exact ⟨hcfg, hinit, hbusy, hready, hfault, hactive, statusWord_low_reserved s, statusWord_fcause s,
    statusWord_high_reserved s⟩

/-! ## The invariant at reset (R41) -/

/-- A block at its reset values meets the invariant, whatever settled frames the observer has kept on WIRE (R41, R148). -/
theorem inv_resetWith {c : Config} (hc : c.wf) {wire : List Frame} (hwire : ∀ f ∈ wire, f.Settled c) :
    State.Inv { State.resetWith c with wire := wire } where
  configWf := hc
  colorWf := rfl
  colorWithin := rfl
  tbufWf := rfl
  tbufWithin := rfl
  slotWidth _ := Nat.two_pow_pos c.codeBits
  busyIsActive := rfl
  busyInit h := nomatch h
  initCfg h := nomatch h
  targetCfg h := absurd rfl h
  posBound := Nat.zero_le _
  posIdle _ := rfl
  noFault _ := ⟨rfl, rfl⟩
  faultCause h := nomatch h
  slotsAreCodes h := nomatch h
  wireIdle _ := hwire
  wireActive h := nomatch h

/-- Settles O55: the inputs are no part of the invariant, and the launched configuration is within its bounds. -/
theorem resetMeetsInvariant : Obligations.ResetMeetsInvariant := by
  have hreset : ∀ c : Config, c.wf → (State.resetWith c).Inv := fun c hc =>
    inv_resetWith hc (wire := []) fun _ hf => absurd hf List.not_mem_nil
  exact ⟨fun c host hostTail moves draws freeCount hc => (hreset c hc).of_inputs rfl,
    hreset Config.launch (by decide)⟩

/-! ## The invariant over the effects of a command -/

section

variable {s : State}

/-- Fault entry records a cause of R120 and touches nothing else (R123). -/
theorem State.Inv.after_fault (h : s.Inv) (cause : Cause) (w : CmdWord) : (raiseFault cause w s).Inv :=
  { h with
    noFault := fun hf => nomatch hf
    faultCause := fun _ => ⟨cause, rfl⟩ }

/-- The invariant does not read RESULT. -/
theorem State.Inv.withResult (h : s.Inv) (r : ReadWord) : State.Inv { s with result := r } :=
  { h with }

/-- COLOR is bound by its canonical form alone (R23, R45). -/
theorem State.Inv.withColor (h : s.Inv) {m : Memory Hsv} (hm : ColorKept s m) : State.Inv { s with color := m } :=
  { h with
    colorWf := hm.wf h.colorWf
    colorWithin := hm.within h.colorWithin }

/-- INIT may rise once CFG is 1 (R37). -/
theorem State.Inv.withInit (h : s.Inv) (hcfg : s.cfg = true) : State.Inv { s with init := true } :=
  { h with
    busyInit := fun _ => rfl
    initCfg := fun _ => hcfg }

/-- CFG may rise at any time, with any target recorded (R37). -/
theorem State.Inv.withTarget (h : s.Inv) (target : Target) : State.Inv { s with target := target, cfg := true } :=
  { h with
    initCfg := fun _ => rfl
    targetCfg := fun _ => rfl }

/-- Without a transfer in flight TBUF is bound by its canonical form and the width of its slots alone (R10, R24, R45). -/
theorem State.Inv.withTbuf (h : s.Inv) (hidle : s.dmaActive = false) {m : Memory PulseCode} (hwf : Memory.wf 0 m = true)
    (hwithin : Memory.within s.config.bufferLength m = true)
    (hwidth : ∀ j, Memory.read 0 m j < 2 ^ s.config.codeBits) : State.Inv { s with tbuf := m } :=
  { h with
    tbufWf := hwf
    tbufWithin := hwithin
    slotWidth := hwidth
    slotsAreCodes := fun hactive => absurd hactive (by simp [hidle])
    wireActive := fun hactive => absurd hactive (by simp [hidle]) }

/-- ONE_CODE and ZERO_CODE fit in a slot (R10). -/
theorem State.Inv.codeOf_lt (h : s.Inv) (b : Bool) : codeOf s.config b < 2 ^ s.config.codeBits := by
  obtain ⟨-, -, -, hone, hzero⟩ := h.configWf
  cases b with
  | false => exact hzero
  | true => exact hone

/-- The zero fill of INITIALIZE, while no transfer is in flight (R108). -/
theorem State.Inv.after_zeroFill (h : s.Inv) (hidle : s.dmaActive = false) : s.zeroFillTbuf.Inv := by
  refine h.withTbuf hidle (Memory.wf_writeRange 0 _ _ _ h.tbufWf)
    (Memory.within_writeRange 0 _ _ _ (Nat.zero_add _).le h.tbufWithin) fun j => ?_
  rw [Memory.read_writeRange]
  split_ifs
  · exact Nat.two_pow_pos _
  · exact h.slotWidth j

/-- The pass, while no transfer is in flight (R102). -/
theorem State.Inv.after_pass (h : s.Inv) (hidle : s.dmaActive = false) (ord : BitVec 2) : (encodePass ord s).Inv := by
  refine h.withTbuf hidle (wf_encodeLeds s.config ord s.color _ h.tbufWf)
    (within_encodeLeds s.config ord s.color _ (bufferLength_eq _).ge h.tbufWithin) fun j => ?_
  rw [read_encodeLeds]
  split_ifs
  · exact h.codeOf_lt _
  · exact h.slotWidth j

/-- START with INIT = 1, no transfer in flight and a code in every slot: the new frame is open and empty (R103, R117). -/
theorem State.Inv.after_start (h : s.Inv) (hidle : s.dmaActive = false) (hinit : s.init = true)
    (hcodes : ∀ j, j < s.config.bufferLength → s.slotAt j = s.config.oneCode ∨ s.slotAt j = s.config.zeroCode) :
    (startTransfer s).Inv :=
  { h with
    busyIsActive := rfl
    busyInit := fun _ => hinit
    posBound := Nat.zero_le _
    posIdle := fun hactive => nomatch hactive
    slotsAreCodes := fun _ => hcodes
    wireIdle := fun hactive => nomatch hactive
    wireActive := fun _ => ⟨s.wire, rfl, h.wireIdle hidle⟩ }

/-- The pass and START, as ENABLE and REQUESTUPDATE run them (R111, R115). -/
theorem State.Inv.after_passAndStart (h : s.Inv) (hidle : s.dmaActive = false) (hinit : s.init = true) (ord : BitVec 2) :
    (startTransfer (encodePass ord s)).Inv :=
  (h.after_pass hidle ord).after_start hidle hinit fun _ hj => slotAt_encodePass_code ord s hj

/-- INIT = 0 rules out a transfer (R36, R37). -/
theorem State.Inv.idle_of_not_init (h : s.Inv) (hinit : s.init = false) : s.dmaActive = false := by
  rw [← h.busyIsActive, ← Bool.not_eq_true]
  exact fun hbusy => absurd (h.busyInit hbusy) (by simp [hinit])

/-- READY says that INIT = 1 and no transfer is in flight (R34, R36). -/
theorem State.Inv.init_and_idle_of_ready (h : s.Inv) (hready : s.ready = true) : s.init = true ∧ s.dmaActive = false := by
  rw [State.ready, Bool.and_eq_true, Bool.not_eq_true'] at hready
  exact ⟨hready.1, h.busyIsActive ▸ hready.2⟩

/-- ENABLE's success path: INIT may rise because a recorded target implies CFG = 1 (R37, R111). -/
theorem State.Inv.after_enable (h : s.Inv) (hidle : s.dmaActive = false) (htarget : s.target ≠ targetNone) :
    (enableSucceeded s).Inv := by
  have hblack : State.Inv { s.writeColors fun _ => Hsv.black with init := true } :=
    (h.withColor (ColorKept.writes s _)).withInit (h.targetCfg htarget)
  exact (hblack.after_passAndStart hidle rfl 0b01).withResult 1

/-- A drawn initialization touches the model's own record alone (R132). -/
theorem State.Inv.after_draw (h : s.Inv) : (hardwareInitialize s).2.Inv :=
  h.of_inputs (by rw [hardwareInitialize_frame])

/-- Every command keeps the invariant. -/
theorem State.Inv.after_exec (h : s.Inv) {i : Instr} {t : State} (ht : exec i s = .next t) : t.Inv := by
  obtain ⟨w, -, rfl⟩ | ⟨w, -, rfl⟩ | ⟨w, -, -, rfl⟩ | ⟨m, -, hm, rfl⟩ | ⟨r, -, rfl⟩ | ⟨target, -, hbusy, rfl⟩ |
    ⟨-, hinit, hdraw, rfl⟩ | ⟨-, -, -, rfl⟩ | ⟨-, -, rfl⟩ | ⟨ord, -, hready, rfl⟩ := exec_next_cases ht
  · exact h.after_fault .indexRange w
  · exact h.after_fault .badDataWord w
  · exact h.after_fault .initWhileBusy w
  · exact h.withColor hm
  · exact h.withResult r
  · exact (h.after_zeroFill (h.busyIsActive ▸ hbusy)).withTarget target
  · have htarget : (hardwareInitialize s).2.target = s.target := by rw [hardwareInitialize_frame]
    have hactive : (hardwareInitialize s).2.dmaActive = s.dmaActive := by rw [hardwareInitialize_frame]
    exact h.after_draw.after_enable (hactive.trans (h.idle_of_not_init hinit))
      (htarget.trans_ne (target_of_hardwareInitialize hdraw))
  · exact h.after_draw.withResult 0
  · exact h
  · obtain ⟨hinit, hidle⟩ := h.init_and_idle_of_ready hready
    exact h.after_passAndStart hidle hinit ord

theorem State.Inv.after_cmdStep (h : s.Inv) {t : State} (ht : cmdStep s = .next t) : t.Inv := by
  obtain ⟨-, ⟨w, why, rest, -, rfl⟩ | ⟨i, rest, -, hexec⟩⟩ := cmdStep_next_cases ht
  · exact State.Inv.after_fault (h.of_inputs rfl) .illegalCommand w
  · exact State.Inv.after_exec (h.of_inputs rfl) hexec

/-! ## The invariant over the transfer and its end -/

/-- While a transfer is in flight the frames before the open one are settled, so an operation on open frames alone acts on the
open frame, which holds the slots emitted (R33, R58). -/
theorem State.Inv.wire_map (h : s.Inv) (hactive : s.dmaActive = true) {g : Frame → Frame}
    (hg : ∀ f : Frame, f.status ≠ .inFlight → g f = f) :
    ∃ done, s.wire.map g = done ++ [g ⟨s.emitted, .inFlight⟩] ∧ ∀ f ∈ done, f.Settled s.config := by
  obtain ⟨done, hwire, hdone⟩ := h.wireActive hactive
  exact ⟨done, hwire ▸ map_last_open hg (fun f hf => (hdone f hf).notOpen) _, hdone⟩

/-- The open frame holds DMA_POS codes, each of them ONE_CODE or ZERO_CODE (R103, R133): it is settled once it is truncated, or
closed with L codes (R33, R134, R148). -/
theorem State.Inv.settled_emitted (h : s.Inv) (hactive : s.dmaActive = true) {status : FrameStatus}
    (hnotOpen : status ≠ .inFlight) (hclosed : status = .closed → s.dmaPos = s.config.bufferLength) :
    Frame.Settled s.config ⟨s.emitted, status⟩ := by
  have hlength : s.emitted.length = s.dmaPos := by simp [State.emitted]
  refine ⟨fun x hx => ?_, hnotOpen, fun hs => hlength.trans (hclosed hs), fun _ => hlength.trans_le h.posBound⟩
  obtain ⟨j, hj, rfl⟩ := List.mem_map.mp hx
  exact h.slotsAreCodes hactive j ((List.mem_range.mp hj).trans_le h.posBound)

/-- Ending the open frame, closed with L codes or truncated, leaves only settled frames on WIRE. -/
theorem State.Inv.settled_map (h : s.Inv) (hactive : s.dmaActive = true) {g : Frame → Frame}
    (hg : ∀ f : Frame, f.status ≠ .inFlight → g f = f)
    (hlast : (g ⟨s.emitted, .inFlight⟩).Settled s.config) : ∀ f ∈ s.wire.map g, f.Settled s.config := by
  obtain ⟨done, hwire, hdone⟩ := h.wire_map hactive hg
  intro f hf
  rw [hwire] at hf
  rcases List.mem_append.mp hf with hf | hf
  · exact hdone f hf
  · exact List.mem_singleton.mp hf ▸ hlast

/-- DMA_EMIT: the open frame gets the slot at DMA_POS, the next one of the slots emitted (R133). -/
theorem State.Inv.after_emit (h : s.Inv) (hactive : s.dmaActive = true) (hpos : s.dmaPos < s.config.bufferLength) :
    (dmaEmit s).Inv := by
  have hemitted : (dmaEmit s).emitted = s.emitted ++ [s.slotAt s.dmaPos] := emitted_succ s s.dmaPos
  refine { h with
    posBound := hpos
    posIdle := fun hidle => nomatch hactive.symm.trans hidle
    wireIdle := fun hidle => nomatch hactive.symm.trans hidle
    wireActive := fun _ => ?_ }
  rw [hemitted]
  exact h.wire_map hactive fun _ => Frame.emit_of_not_open (s.slotAt s.dmaPos)

/-- DMA_COMPLETE: the frame closed holds all L slots (R134). -/
theorem State.Inv.after_complete (h : s.Inv) (hactive : s.dmaActive = true) (hpos : s.dmaPos = s.config.bufferLength) :
    (dmaComplete s).Inv :=
  { h with
    busyIsActive := rfl
    busyInit := fun hbusy => nomatch hbusy
    posBound := Nat.zero_le _
    posIdle := fun _ => rfl
    slotsAreCodes := fun hnone => nomatch hnone
    wireIdle := fun _ => h.settled_map hactive (fun _ => Frame.close_of_not_open)
      (h.settled_emitted hactive (status := .closed) (by decide) fun _ => hpos)
    wireActive := fun hnone => nomatch hnone }

theorem State.Inv.after_dmaStep (h : s.Inv) {t : State} (ht : dmaStep s = .next t) : t.Inv := by
  obtain ⟨hactive, ⟨hpos, rfl⟩ | ⟨hpos, rfl⟩⟩ := dmaStep_next_cases ht
  · exact h.after_emit hactive hpos
  · exact h.after_complete hactive hpos

/-- A reset: whether WIRE is emptied or its open frame truncated, only settled frames are left on it (R146, R148). -/
theorem State.Inv.after_reset (h : s.Inv) (keepWire : Bool) : (resetBlock keepWire s).Inv := by
  have hwire : ∀ f ∈ (resetBlock keepWire s).wire, f.Settled s.config := by
    rw [resetBlock_wire]
    split_ifs with hkeep
    · have hactive : s.dmaActive = true := (Bool.and_eq_true_iff.mp hkeep).2
      exact h.settled_map hactive (fun _ => Frame.truncate_of_not_open)
        (h.settled_emitted hactive (status := .truncated) (by decide) fun hclosed => nomatch hclosed)
    · exact fun _ hf => absurd hf List.not_mem_nil
  exact (inv_resetWith h.configWf hwire).of_inputs rfl

/-! ## The invariant over every step and every run -/

theorem State.Inv.after_perform (h : s.Inv) {m : Move} {t : State} (ht : perform m s = .next t) : t.Inv := by
  cases m with
  | cmd => exact h.after_cmdStep ht
  | dma => exact h.after_dmaStep ht
  | supply w =>
    cases ht
    exact h.of_inputs rfl
  | reset keepWire =>
    cases ht
    exact h.after_reset keepWire
  | hold =>
    cases ht
    exact h

/-- Choosing the next move touches the model's own inputs alone (log entry 3). -/
theorem State.Inv.after_nextMove (h : s.Inv) : (nextMove s).2.Inv :=
  h.of_inputs (by rw [nextMove_frame])

/-- The flags of a state that meets the invariant are one of the four combinations of R35. -/
theorem State.Inv.exists_controller (h : s.Inv) : ∃ a, s.controller = some a := by
  cases hinit : s.init with
  | false =>
    have hbusy : s.busy = false := h.busyIsActive.trans (h.idle_of_not_init hinit)
    cases hcfg : s.cfg with
    | false => exact ⟨.uninit, by simp [State.controller, hcfg, hinit, hbusy]⟩
    | true => exact ⟨.configured, by simp [State.controller, hcfg, hinit, hbusy]⟩
  | true =>
    have hcfg : s.cfg = true := h.initCfg hinit
    cases hbusy : s.busy with
    | false => exact ⟨.idle, by simp [State.controller, hcfg, hinit, hbusy]⟩
    | true => exact ⟨.busy, by simp [State.controller, hcfg, hinit, hbusy]⟩

end

/-- Settles O56: the choice of the move keeps the invariant, and so does each move. -/
theorem stepKeepsInvariant : Obligations.StepKeepsInvariant :=
  fun _ _ h ht => h.after_nextMove.after_perform ht

/-- Every reachable state meets the invariant: it holds at reset and every step keeps it. -/
theorem Reachable.inv {s : State} (h : Reachable s) : s.Inv := by
  induction h with
  | launch c host hostTail moves draws freeCount hc =>
    exact resetMeetsInvariant.1 c host hostTail moves draws freeCount hc
  | step s t _ hs ih => exact stepKeepsInvariant s t ih hs

/-- Settles O57: these are clauses of the invariant, and R37's two rule out every other combination of flags. -/
theorem reachableFlagInvariants : Obligations.ReachableFlagInvariants := fun _ hs =>
  have h := hs.inv
  ⟨h.busyIsActive, h.busyInit, h.initCfg, h.exists_controller, h.posBound, h.posIdle⟩

end Sys2Proof.Machine
end

section
/-! PROOFS. The statements of 20_memory.md: an agent is enabled where it can take a step (R54, R130), a repeated write and a
repeated pass change nothing (R53, R64), and a busy block keeps its buffer (R58). -/

namespace Sys2Proof

/-! ## A decoded command is well-formed (R16) -/

/-- A decoded FILLFROM carries N data words, since it waits for them (R82, R85). -/
theorem wellFormed_of_decode {n : Nat} {ws rest : List CmdWord} {i : Instr} (h : decode n ws = .command i rest) :
    WellFormed n i = true := by
  cases ws with
  | nil => cases h
  | cons w ws =>
    simp only [decode] at h
    split_ifs at h with hlen
    split at h
    · cases h
    · rename_i hdec
      cases h
      obtain ⟨op, hop, -, -, -, -, rfl⟩ := decodeWord_eq_ok.mp hdec
      cases op with
      | fillFrom =>
        have hn : n ≤ ws.length := by rwa [dataWordCount, if_pos (byte_of_ofByte hop), not_lt] at hlen
        exact beq_iff_eq.mpr (List.length_take_of_le hn)
      | setColor | getColor | setChannel | scaleChannel | fill | initTarget | enable | isReady | requestUpdate => rfl

end Sys2Proof

namespace Sys2Proof.Machine

/-! ## Enabled agents (R54, R130, R133, R134) -/

/-- CMD is enabled without a fault, with a command or an illegal word at the head of the stream (R44, R85, R124). -/
theorem cmdEnabled_iff {s : State} : cmdEnabled s = true ↔ s.fault = false ∧
    ((∃ w why rest, decode s.config.ledCapacity s.host = .illegal w why rest) ∨
      ∃ i rest, decode s.config.ledCapacity s.host = .command i rest) := by
  unfold cmdEnabled
  cases decode s.config.ledCapacity s.host <;> simp

/-- DMA is enabled while a transfer is in flight and DMA_POS is within the buffer or at its end (R133, R134). -/
theorem dmaEnabled_iff {s : State} :
    dmaEnabled s = true ↔ s.dmaActive = true ∧ s.dmaPos ≤ s.config.bufferLength := by
  rw [dmaEnabled, Bool.and_eq_true, decide_eq_true_eq]

/-- CMD takes an illegal word and faults with it (R77 to R79). -/
theorem cmdStep_of_illegal {s : State} {w : CmdWord} {why : Reject} {rest : List CmdWord} (hf : s.fault = false)
    (hd : decode s.config.ledCapacity s.host = .illegal w why rest) :
    cmdStep s = .next (raiseFault .illegalCommand w { s with host := rest }) := by
  simp [cmdStep, hf, hd]

/-- CMD's step answers next exactly where CMD is enabled: a decoded command is well-formed, so it completes (R16). -/
theorem cmdEnabled_iff_next {s : State} : cmdEnabled s = true ↔ ∃ t, cmdStep s = .next t := by
  constructor
  · intro h
    obtain ⟨hf, ⟨w, why, rest, hd⟩ | ⟨i, rest, hd⟩⟩ := cmdEnabled_iff.mp h
    · exact ⟨_, cmdStep_of_illegal hf hd⟩
    · rw [cmdStep_of_command hf hd]
      exact exec_next_of_wellFormed (wellFormed_of_decode hd)
  · rintro ⟨t, ht⟩
    obtain ⟨hf, ⟨w, why, rest, hd, -⟩ | ⟨i, rest, hd, -⟩⟩ := cmdStep_next_cases ht
    · exact cmdEnabled_iff.mpr ⟨hf, .inl ⟨w, why, rest, hd⟩⟩
    · exact cmdEnabled_iff.mpr ⟨hf, .inr ⟨i, rest, hd⟩⟩

/-- DMA's step answers next exactly where DMA is enabled. -/
theorem dmaEnabled_iff_next {s : State} : dmaEnabled s = true ↔ ∃ t, dmaStep s = .next t := by
  constructor
  · intro h
    rw [dmaStep, if_pos h]
    exact ⟨_, (apply_ite Host.Outcome.next _ _ _).symm⟩
  · rintro ⟨t, ht⟩
    obtain ⟨hactive, ⟨hpos, -⟩ | ⟨hpos, -⟩⟩ := dmaStep_next_cases ht
    · exact dmaEnabled_iff.mpr ⟨hactive, hpos.le⟩
    · exact dmaEnabled_iff.mpr ⟨hactive, hpos.le⟩

/-- Whether a move is possible: an agent's where the agent is enabled, an act of the host always (R143). -/
def moveEnabled (m : Move) (s : State) : Bool :=
  match m with
  | .cmd => cmdEnabled s
  | .dma => dmaEnabled s
  | .supply _ => true
  | .reset _ => true
  | .hold => true

/-- A possible move answers a next state. -/
theorem perform_next_of_enabled {m : Move} {s : State} (h : moveEnabled m s = true) : ∃ t, perform m s = .next t := by
  cases m with
  | cmd => exact cmdEnabled_iff_next.mp h
  | dma => exact dmaEnabled_iff_next.mp h
  | supply | reset | hold => exact ⟨_, rfl⟩

/-- Whether a move is possible does not depend on the model's own fields (log entries 3, 5). -/
theorem moveEnabled_withCounters (m : Move) (s : State) (dmaWait : Option Nat) (freeCount : Nat) :
    moveEnabled m { s with dmaWait := dmaWait, freeCount := freeCount } = moveEnabled m s := by
  cases m <;> rfl

/-! ## A listed move, and a free one while the host's stream goes on -/

/-- A step with a listed move is that move. -/
theorem step_of_moves {s : State} {m : Move} {ms : List Move} (hm : s.moves = m :: ms) :
    step s = perform m { s with moves := ms } := by
  simp only [step, nextMove, hm]

/-- A stream that goes on has a next word (R44, log entry 19). -/
theorem exists_pop_of_ne_ended {tail : HostTail} (h : tail ≠ .ended) (n : Nat) : ∃ p, tail.pop n = some p := by
  cases tail with
  | ended => exact absurd rfl h
  | cycle w ws => cases ws <;> exact ⟨_, rfl⟩
  | free => exact ⟨_, rfl⟩

/-- Without a fault and with words still to come CMD's side can always move: CMD itself, or the host's write of the next word. -/
theorem freeCmdMove_ne_none {s : State} (hf : s.fault = false) (htail : s.hostTail ≠ .ended) : freeCmdMove s ≠ none := by
  obtain ⟨p, hp⟩ := exists_pop_of_ne_ended htail s.freeCount
  unfold freeCmdMove
  cases decode s.config.ledCapacity s.host <;> simp [hf, hp]

/-- What CMD's side chooses by itself is possible. -/
theorem moveEnabled_of_freeCmdMove {s : State} {p : Move × State} (h : freeCmdMove s = some p) :
    moveEnabled p.1 p.2 = true := by
  obtain ⟨rfl, henabled⟩ | ⟨w, tail, rfl, -⟩ := freeCmdMove_cases h
  · exact henabled
  · rfl

/-- The free choice falls on a possible move while CMD's side has one. -/
theorem moveEnabled_freeMove {s : State} (h : freeCmdMove s ≠ none) : moveEnabled (freeMove s).1 (freeMove s).2 = true := by
  obtain ⟨hdma, hm⟩ | ⟨-, -, -, hm⟩ | ⟨p, hp, -, hm⟩ | ⟨p, hp, -, -, hm⟩ | ⟨-, hnone, -⟩ := freeMove_cases s
  · rw [hm]
    exact hdma
  · rw [hm]
    rfl
  · rw [hm]
    exact moveEnabled_of_freeCmdMove hp
  · rw [hm]
    exact (moveEnabled_withCounters p.1 p.2 _ p.2.freeCount).trans (moveEnabled_of_freeCmdMove hp)
  · exact absurd hnone h

/-- With no move listed, no fault and words still to come the machine takes a step. -/
theorem step_next_of_stream {s : State} (hm : s.moves = []) (hf : s.fault = false) (htail : s.hostTail ≠ .ended) :
    ∃ t, step s = .next t := by
  have henabled := moveEnabled_freeMove (freeCmdMove_ne_none hf htail)
  simp only [step, nextMove, hm]
  exact perform_next_of_enabled ((moveEnabled_withCounters _ _ _ _).trans henabled)

/-- Settles O11: the agents' guards decide their steps, a listed move is performed as it stands, and the free choice is possible
while the host's stream goes on. -/
theorem enabledAgentsTakeSteps : Obligations.EnabledAgentsTakeSteps := fun _ =>
  ⟨cmdEnabled_iff_next, dmaEnabled_iff_next, dmaEnabled_iff, fun _ => step_of_moves, fun _ => step_of_moves,
    fun _ _ => step_of_moves, fun _ => step_of_moves, step_next_of_stream⟩

/-! ## A repeated write (R53) -/

section

variable {α : Type} [DecidableEq α]

/-- Writing the value an element already has changes nothing in a canonical store (log entry 9). -/
theorem Memory.write_eq_self (z : α) {m : Memory α} {a : Nat} {v : α} (hwf : Memory.wf z m = true)
    (hv : Memory.read z m a = v) : Memory.write z m a v = m := by
  refine Memory.ext z (Memory.wf_write z a v hwf) hwf fun b => ?_
  rw [Memory.read_write]
  split_ifs with hb
  · rw [hb, hv]
  · rfl

/-- A range of writes of the values already there changes nothing. -/
theorem Memory.writeRange_eq_self (z : α) {m : Memory α} {base : Nat} {f : Nat → α} {count : Nat}
    (hwf : Memory.wf z m = true) (hf : ∀ k < count, Memory.read z m (base + k) = f k) :
    Memory.writeRange z m base f count = m := by
  induction count with
  | zero => rfl
  | succ n ih => rw [Memory.writeRange, ih fun k hk => hf k (by omega), Memory.write_eq_self z hwf (hf n n.lt_succ_self)]

/-- A range of writes made twice is made once. -/
theorem Memory.writeRange_writeRange (z : α) {m : Memory α} (base : Nat) (f : Nat → α) (count : Nat)
    (hwf : Memory.wf z m = true) :
    Memory.writeRange z (Memory.writeRange z m base f count) base f count = Memory.writeRange z m base f count := by
  refine Memory.writeRange_eq_self z (Memory.wf_writeRange z base f count hwf) fun k hk => ?_
  rw [Memory.read_writeRange, if_pos (by omega), Nat.add_sub_cancel_left]

end

section

variable {s t : State}

@[simp] theorem indexOk_writeColor (s : State) (i : Nat) (c : Hsv) (idx : BitVec 16) :
    indexOk (s.writeColor i c) idx = indexOk s idx := rfl

theorem colorAt_writeColor_same (s : State) (i : Nat) (c : Hsv) : (s.writeColor i c).colorAt i = c := by
  rw [State.colorAt, writeColor_color, Memory.read_write, if_pos rfl]

theorem writeColor_writeColor (hwf : Memory.wf Hsv.black s.color = true) (i : Nat) (c : Hsv) :
    (s.writeColor i c).writeColor i c = s.writeColor i c := by
  have hcolor := Memory.write_eq_self Hsv.black (Memory.wf_write Hsv.black i c hwf) (colorAt_writeColor_same s i c)
  rw [State.writeColor, writeColor_color, hcolor]
  rfl

theorem writeColors_writeColors (hwf : Memory.wf Hsv.black s.color = true) (f : Nat → Hsv) :
    (s.writeColors f).writeColors f = s.writeColors f := by
  rw [State.writeColors, writeColors_color, writeColors_config, Memory.writeRange_writeRange _ _ _ _ hwf]
  rfl

/-- SETCOLOR again: the entry holds the colour, or the same index faults again (R87, R88). -/
theorem execSetColor_repeat {idx : BitVec 16} {c : Hsv} (hwf : Memory.wf Hsv.black s.color = true)
    (h : execSetColor idx c s = .next t) : execSetColor idx c t = .next t := by
  unfold execSetColor at h
  split_ifs at h with hi <;> cases h
  · rw [execSetColor, indexOk_writeColor, if_pos hi, writeColor_writeColor hwf]
  · exact if_neg hi

/-- SETCHANNEL again: the colour it writes is the one the entry then holds (R90). -/
theorem execSetChannel_repeat {idx : BitVec 16} {v : Channel} (hwf : Memory.wf Hsv.black s.color = true)
    (h : execSetChannel idx v s = .next t) : execSetChannel idx v t = .next t := by
  unfold execSetChannel at h
  split_ifs at h with hi <;> cases h
  · rw [execSetChannel, indexOk_writeColor, if_pos hi, colorAt_writeColor_same, writeColor_writeColor hwf]
  · exact if_neg hi

/-- FILL again (R92). -/
theorem execFill_repeat {c : Hsv} (hwf : Memory.wf Hsv.black s.color = true)
    (h : execFill c s = .next t) : execFill c t = .next t := by
  cases h
  rw [execFill, writeColors_writeColors hwf]

theorem execFillFrom_of_bad {data : List CmdWord} {d : CmdWord} (hlen : data.length = s.config.ledCapacity)
    (hbad : firstBadDataWord data = some d) : execFillFrom data s = .next (raiseFault .badDataWord d s) := by
  simp only [execFillFrom, if_pos hlen, hbad]

theorem execFillFrom_of_good {data : List CmdWord} (hlen : data.length = s.config.ledCapacity)
    (hgood : firstBadDataWord data = none) : execFillFrom data s = .next (s.writeColors (dataColor data)) := by
  simp only [execFillFrom, if_pos hlen, hgood]

/-- FILLFROM again: the same colours, or the same first bad data word (R93). -/
theorem execFillFrom_repeat {data : List CmdWord} (hwf : Memory.wf Hsv.black s.color = true)
    (h : execFillFrom data s = .next t) : execFillFrom data t = .next t := by
  have hlen : data.length = s.config.ledCapacity := by
    by_contra hne
    cases (execFillFrom_of_length_ne hne).symm.trans h
  cases hbad : firstBadDataWord data with
  | some d =>
    cases (execFillFrom_of_bad hlen hbad).symm.trans h
    exact execFillFrom_of_bad (s := raiseFault .badDataWord d s) hlen hbad
  | none =>
    cases (execFillFrom_of_good hlen hbad).symm.trans h
    rw [execFillFrom_of_good (s := s.writeColors _) hlen hbad, writeColors_writeColors hwf]

/-- INITIALIZE again: the buffer holds zeros and the target is recorded, or BUSY faults again (R108, R109). -/
theorem execInitTarget_repeat {target : Target} (hwf : Memory.wf 0 s.tbuf = true)
    (h : execInitTarget target s = .next t) : execInitTarget target t = .next t := by
  unfold execInitTarget at h
  split_ifs at h with hbusy <;> cases h
  · exact if_pos hbusy
  · have hzeros := Memory.writeRange_writeRange 0 0 (fun _ => 0) s.config.bufferLength hwf
    simp [execInitTarget, hbusy, State.zeroFillTbuf, hzeros]

end

/-- Settles O23: each of the five commands by its own repetition; no other command is in the list. -/
theorem repeatedWritesLeaveSameState : Obligations.RepeatedWritesLeaveSameState := by
  intro s t i hcolor htbuf hi h
  cases i with
  | setColor => exact execSetColor_repeat hcolor h
  | setChannel => exact execSetChannel_repeat hcolor h
  | fill => exact execFill_repeat hcolor h
  | fillFrom => exact execFillFrom_repeat hcolor h
  | initTarget => exact execInitTarget_repeat htbuf h
  | getColor | scaleChannel | enable | isReady | requestUpdate => simp [Instr.opcode] at hi

/-! ## The pass and the buffer before it (R64, R100) -/

/-- The pass over every LED writes every slot that a canonical buffer of L slots can list. -/
theorem encodeLeds_forgets (c : Config) (ord : BitVec 2) (color : Memory Hsv) {tbuf tbuf' : Memory PulseCode}
    (hwf : Memory.wf 0 tbuf = true) (hwithin : Memory.within c.bufferLength tbuf = true)
    (hwf' : Memory.wf 0 tbuf' = true) (hwithin' : Memory.within c.bufferLength tbuf' = true) :
    encodeLeds c ord color tbuf c.ledCapacity = encodeLeds c ord color tbuf' c.ledCapacity := by
  refine Memory.ext 0 (wf_encodeLeds c ord color _ hwf) (wf_encodeLeds c ord color _ hwf') fun j => ?_
  rw [read_encodeLeds, read_encodeLeds]
  split_ifs with hj
  · rfl
  · have hout : c.bufferLength ≤ j := not_lt.mp hj
    rw [Memory.read_outside 0 hout hwithin, Memory.read_outside 0 hout hwithin']

/-- Settles O28: TBUF is all that the two states differ in, and the pass forgets it. -/
theorem encodePassForgetsPriorBuffer : Obligations.EncodePassForgetsPriorBuffer := by
  intro s tbuf tbuf' ord hwf hwithin hwf' hwithin'
  simp only [encodePass, encodeLeds_forgets s.config ord s.color hwf hwithin hwf' hwithin']

/-! ## TBUF while BUSY = 1 (R58) -/

/-- The commands that write TBUF are shut out: INITIALIZE by BUSY = 1 (R109), REQUESTUPDATE by READY = 0 (R114), ENABLE by
INIT = 1 (R110). -/
theorem exec_tbuf_of_busy {i : Instr} {s t : State} (hbusy : s.busy = true) (hinit : s.init = true)
    (h : exec i s = .next t) : t.tbuf = s.tbuf := by
  obtain ⟨w, -, rfl⟩ | ⟨w, -, rfl⟩ | ⟨w, -, -, rfl⟩ | ⟨m, -, -, rfl⟩ | ⟨r, -, rfl⟩ | ⟨-, -, hidle, -⟩ | ⟨-, huninit, -, -⟩ |
    ⟨-, huninit, -, -⟩ | ⟨-, -, rfl⟩ | ⟨-, -, hready, -⟩ := exec_next_cases h
  · rfl
  · rfl
  · rfl
  · rfl
  · rfl
  · exact nomatch hbusy.symm.trans hidle
  · exact nomatch hinit.symm.trans huninit
  · exact nomatch hinit.symm.trans huninit
  · rfl
  · simp [State.ready, hbusy] at hready

theorem cmdStep_tbuf_of_busy {s t : State} (hbusy : s.busy = true) (hinit : s.init = true)
    (h : cmdStep s = .next t) : t.tbuf = s.tbuf := by
  obtain ⟨-, ⟨w, why, rest, -, rfl⟩ | ⟨i, rest, -, hexec⟩⟩ := cmdStep_next_cases h
  · rfl
  · exact exec_tbuf_of_busy (s := { s with host := rest }) hbusy hinit hexec

/-- The DMA agent reads TBUF and never writes it (R133, R134). -/
theorem dmaStep_tbuf {s t : State} (h : dmaStep s = .next t) : t.tbuf = s.tbuf := by
  obtain ⟨-, ⟨-, rfl⟩ | ⟨-, rfl⟩⟩ := dmaStep_next_cases h
  · rfl
  · rfl

theorem perform_tbuf_of_busy {m : Move} {s t : State} (hbusy : s.busy = true) (hinit : s.init = true)
    (h : perform m s = .next t) (hm : ∀ keepWire, m ≠ .reset keepWire) : t.tbuf = s.tbuf := by
  cases m with
  | cmd => exact cmdStep_tbuf_of_busy hbusy hinit h
  | dma => exact dmaStep_tbuf h
  | reset keepWire => exact absurd rfl (hm keepWire)
  | supply | hold =>
    cases h
    rfl

/-- Settles O49: the choice of the move keeps BUSY, INIT and TBUF, and by the invariant BUSY = 1 implies INIT = 1 (R37). -/
theorem noStepWritesBufferWhileBusy : Obligations.NoStepWritesBufferWhileBusy := by
  intro s t h ht hbusy hm
  have hbusy' : (nextMove s).2.busy = true := by rwa [nextMove_frame]
  have htbuf : (nextMove s).2.tbuf = s.tbuf := by rw [nextMove_frame]
  exact (perform_tbuf_of_busy hbusy' (h.after_nextMove.busyInit hbusy') ht hm).trans htbuf

end Sys2Proof.Machine
end

section
/-! PROOFS. The round trips of 30_encoding.md: the decoder and the encoder are inverse (R66, R77, R82). -/

namespace Sys2Proof

/-! ## How many words a command takes, told from OP alone (R65, R82) -/

theorem dataWordCount_of_fillFrom {n : Nat} {w : CmdWord} (h : fieldOp w = Opcode.byte .fillFrom) : dataWordCount n w = n :=
  if_pos h

theorem dataWordCount_of_ne {n : Nat} {w : CmdWord} (h : fieldOp w ≠ Opcode.byte .fillFrom) : dataWordCount n w = 0 :=
  if_neg h

/-! ## `decode` on a stream with a word at its head, one equation per answer -/

theorem decode_of_short {n : Nat} {w : CmdWord} {ws : List CmdWord} (h : ws.length < dataWordCount n w) :
    decode n (w :: ws) = .awaitingData :=
  if_pos h

theorem decode_of_decodeWord_error {n : Nat} {w : CmdWord} {ws : List CmdWord} {why : Reject}
    (hlen : dataWordCount n w ≤ ws.length) (h : decodeWord w (ws.take n) = .error why) :
    decode n (w :: ws) = .illegal w why (ws.drop (dataWordCount n w)) := by
  rw [decode, if_neg hlen.not_gt, h]

theorem decode_of_decodeWord_ok {n : Nat} {w : CmdWord} {ws : List CmdWord} {i : Instr}
    (hlen : dataWordCount n w ≤ ws.length) (h : decodeWord w (ws.take n) = .ok i) :
    decode n (w :: ws) = .command i (ws.drop (dataWordCount n w)) := by
  rw [decode, if_neg hlen.not_gt, h]

/-- A decoded command comes from an accepted word with its data words behind it. -/
theorem exists_word_of_decode {n : Nat} {stream rest : List CmdWord} {i : Instr} (h : decode n stream = .command i rest) :
    ∃ w ws, stream = w :: ws ∧ decodeWord w (ws.take n) = .ok i ∧ rest = ws.drop (dataWordCount n w) := by
  cases stream with
  | nil => cases h
  | cons w ws =>
    obtain hlen | hlen := lt_or_ge ws.length (dataWordCount n w)
    · cases (decode_of_short hlen).symm.trans h
    · cases hdec : decodeWord w (ws.take n) with
      | error why => cases (decode_of_decodeWord_error hlen hdec).symm.trans h
      | ok j =>
        cases (decode_of_decodeWord_ok hlen hdec).symm.trans h
        exact ⟨w, ws, rfl, hdec, rfl⟩

/-! ## Decode of encode -/

theorem take_dataWords {n : Nat} {i : Instr} (hi : i.opcode = .fillFrom) (h : WellFormed n i = true) (rest : List CmdWord) :
    (dataWords i ++ rest).take n = dataWords i := by
  cases i with
  | fillFrom data => exact List.take_left' (beq_iff_eq.mp h)
  | setColor | getColor | setChannel | scaleChannel | fill | initTarget | enable | isReady | requestUpdate => cases hi

/-- The word of a well-formed command decodes to it, whatever words follow its data words. -/
theorem decodeWord_encodeWord_append {n : Nat} {i : Instr} (h : WellFormed n i = true) (rest : List CmdWord) :
    decodeWord (encodeWord i) ((dataWords i ++ rest).take n) = .ok i := by
  by_cases hi : i.opcode = .fillFrom
  · rw [take_dataWords hi h]
    exact decodeWord_encodeWord i
  · exact decodeWord_ok_data (decodeWord_encodeWord i) hi

/-- Settles O2: the command word says how many data words to take, and these are the command's own. -/
theorem decodeOfEncodeGivesCommandBack : Obligations.DecodeOfEncodeGivesCommandBack := by
  intro n i rest h
  have hcount := dataWordCount_encodeWord h
  have hlen : dataWordCount n (encodeWord i) ≤ (dataWords i ++ rest).length := by simp [hcount]
  rw [encode, List.cons_append, decode_of_decodeWord_ok hlen (decodeWord_encodeWord_append h rest), hcount, List.drop_left]

/-! ## Encode of decode -/

/-- The data words of a decoded command are those its word takes from the stream. -/
theorem dataWords_of_decodeWord {n : Nat} {w : CmdWord} {ws : List CmdWord} {i : Instr}
    (h : decodeWord w (ws.take n) = .ok i) : dataWords i = ws.take (dataWordCount n w) := by
  obtain rfl := encodeWord_of_decodeWord h
  cases i with
  | fillFrom data =>
    obtain ⟨op, hop, -, -, -, -, hi⟩ := decodeWord_eq_ok.mp h
    rw [fieldOp_fillFrom, ofByte_byte] at hop
    cases hop
    rw [dataWordCount_of_fillFrom (fieldOp_fillFrom data), hi]
    rfl
  | setColor | getColor | setChannel | scaleChannel | fill | initTarget | enable | isReady | requestUpdate =>
    rw [dataWordCount_of_ne (by rw [fieldOp_encodeWord]; exact fun hb => nomatch byte_injective hb)]
    rfl

/-- Settles O3: the accepted word is the encoding of the command, and the data words taken with it are the command's. -/
theorem encodeOfDecodeGivesWordsBack : Obligations.EncodeOfDecodeGivesWordsBack := by
  intro n stream i rest h
  obtain ⟨w, ws, rfl, hdec, rfl⟩ := exists_word_of_decode h
  refine ⟨wellFormed_of_decode h, ?_⟩
  rw [encode, encodeWord_of_decodeWord hdec, dataWords_of_decodeWord hdec, List.cons_append, List.take_append_drop]

end Sys2Proof
end

section
/-! PROOFS. R76 of 30_encoding.md: the match and mask table selects exactly the words the decoder accepts. -/

namespace Sys2Proof

/-! ## A concatenation part by part -/

theorem append_eq_append_iff {a b : Nat} {x x' : BitVec a} {y y' : BitVec b} : x ++ y = x' ++ y' ↔ x = x' ∧ y = y' := by
  constructor
  · intro h
    have hx := congrArg (BitVec.extractLsb' b a) h
    have hy := congrArg (BitVec.extractLsb' 0 b) h
    rw [BitVec.extractLsb'_append_eq_left, BitVec.extractLsb'_append_eq_left] at hx
    rw [BitVec.extractLsb'_append_eq_right, BitVec.extractLsb'_append_eq_right] at hy
    exact ⟨hx, hy⟩
  · rintro ⟨rfl, rfl⟩
    rfl

/-- A mask of the upper bits selects the values whose upper bits are 0. -/
theorem and_upperMask_eq_zero_iff {a b : Nat} (x : BitVec (a + b)) :
    x &&& (BitVec.allOnes a ++ 0#b) = 0 ↔ x.extractLsb' b a = 0 := by
  have hx : x = x.extractLsb' b a ++ x.extractLsb' 0 b := by
    rw [BitVec.extractLsb'_append_extractLsb'_eq_extractLsb' (Nat.zero_add b).symm]
    exact BitVec.extractLsb'_eq_self.symm
  have hzero : (0 : BitVec (a + b)) = 0#a ++ 0#b := BitVec.zero_append_zero.symm
  conv_lhs => rw [hx, hzero, BitVec.and_append, append_eq_append_iff]
  simp

/-- A field is 0 exactly when its upper and its lower part are. -/
theorem extractLsb'_eq_zero_iff {w start high low : Nat} {x : BitVec w} : x.extractLsb' start (high + low) = 0 ↔
    x.extractLsb' (start + low) high = 0 ∧ x.extractLsb' start low = 0 := by
  have hx := BitVec.extractLsb'_append_extractLsb'_eq_extractLsb' (x := x) (len₂ := high) (rfl : start + low = start + low)
  have hzero : (0 : BitVec (high + low)) = 0#high ++ 0#low := BitVec.zero_append_zero.symm
  rw [← hx, hzero, append_eq_append_iff]
  rfl

/-! ## The rows of R76, built from the operand columns of R75 -/

/-- The bits of DATA a format reserves (R70 to R73). -/
def Format.reservedMask : Format → BitVec 32
  | .hsv => BitVec.allOnes 8 ++ 0#24
  | .val8 => BitVec.allOnes 24 ++ 0#8
  | .tgt => 0
  | .none => BitVec.allOnes 32

/-- The mask of a command: OP and RSV, and each field and part of a field the command does not use. -/
def Opcode.mask (op : Opcode) : CmdWord :=
  BitVec.allOnes 8 ++ BitVec.allOnes 6 ++ (if op.usesOrd then 0 else BitVec.allOnes 2) ++
    (if op.usesIdx then 0 else BitVec.allOnes 16) ++ op.format.reservedMask

/-- The row of a command: OP alone is not 0 in its pattern. -/
def Opcode.maskRow (op : Opcode) : MaskRow := ⟨op, packFields op 0 0 0, op.mask⟩

theorem maskTable_eq : maskTable = Opcode.all.map Opcode.maskRow := by decide

theorem mem_opcodes (op : Opcode) : op ∈ Opcode.all := by cases op <;> decide

theorem mem_maskTable {r : MaskRow} : r ∈ maskTable ↔ ∃ op : Opcode, op.maskRow = r := by
  simp [maskTable_eq, mem_opcodes]

theorem dataLegal_iff {f : Format} {d : BitVec 32} : f.dataLegal d = true ↔ d &&& f.reservedMask = 0 := by
  cases f with
  | hsv => exact beq_iff_eq.trans (and_upperMask_eq_zero_iff (a := 8) (b := 24) d).symm
  | val8 => exact beq_iff_eq.trans (and_upperMask_eq_zero_iff (a := 24) (b := 8) d).symm
  | tgt => simp [Format.dataLegal, Format.reservedMask]
  | none =>
    rw [Format.reservedMask, BitVec.and_allOnes]
    exact beq_iff_eq

/-- A word selects a command's row exactly when its OP is the command's and every reserved or unused field is 0. -/
theorem and_mask_eq_iff {w : CmdWord} {op : Opcode} : w &&& op.mask = packFields op 0 0 0 ↔
    fieldOp w = op.byte ∧ fieldRsv w = 0 ∧ (op.usesOrd = false → fieldOrd w = 0) ∧
      (op.usesIdx = false → fieldIdx w = 0) ∧ op.format.dataLegal (fieldData w) = true := by
  have hunused : ∀ {n : Nat} (used : Bool) (x : BitVec n),
      x &&& (if used then 0 else BitVec.allOnes n) = 0 ↔ (used = false → x = 0) := fun used x => by cases used <;> simp
  conv_lhs => rw [fields_eq w]
  rw [Opcode.mask, packFields, BitVec.and_append, BitVec.and_append, BitVec.and_append, BitVec.and_append,
    append_eq_append_iff, append_eq_append_iff, append_eq_append_iff, append_eq_append_iff, hunused, hunused,
    BitVec.and_allOnes, BitVec.and_allOnes, dataLegal_iff]
  simp only [and_assoc]

/-- The decoder accepts a word as a command exactly when the command's row selects it (R76, R77). -/
theorem exists_decodeWord_iff {w : CmdWord} {data : List CmdWord} {op : Opcode} :
    (∃ i, decodeWord w data = .ok i ∧ i.opcode = op) ↔ w &&& op.mask = packFields op 0 0 0 := by
  rw [and_mask_eq_iff]
  constructor
  · rintro ⟨i, hdec, rfl⟩
    obtain ⟨op, hop, hrsv, hord, hidx, hdata, rfl⟩ := decodeWord_eq_ok.mp hdec
    rw [opcode_buildInstr]
    exact ⟨byte_of_ofByte hop, hrsv, hord, hidx, hdata⟩
  · rintro ⟨hop, hrsv, hord, hidx, hdata⟩
    exact ⟨buildInstr op w data,
      decodeWord_eq_ok.mpr ⟨op, by rw [hop, ofByte_byte], hrsv, hord, hidx, hdata, rfl⟩, opcode_buildInstr op w data⟩

/-! ## The data words' row -/

/-- A data word is good exactly by its own match and mask (R74, R76). -/
theorem dataWordOk_iff {d : CmdWord} : dataWordOk d = true ↔ d &&& 0xFFFFFFFFFF000000 = 0 :=
  have hmask : (0xFFFFFFFFFF000000 : CmdWord) = BitVec.allOnes 40 ++ 0#24 := by decide
  hmask ▸ beq_iff_eq.trans (and_upperMask_eq_zero_iff (a := 40) (b := 24) d).symm

/-- A good data word has OP = 0x00, which no command has (R74, R75). -/
theorem fieldOp_of_dataWordOk {d : CmdWord} (h : dataWordOk d = true) : fieldOp d = 0 :=
  ((extractLsb'_eq_zero_iff (start := 24) (high := 8) (low := 32)).mp (beq_iff_eq.mp h)).1

theorem byte_ne_zero (op : Opcode) : op.byte ≠ 0 := by cases op <;> decide

/-! ## FILLFROM takes its data as it stands -/

theorem encodeWord_fillFrom (data : List CmdWord) : encodeWord (.fillFrom data) = 0x0600000000000000 := by
  show packFields .fillFrom 0 0 0 = _
  decide

/-- The N words after a FILLFROM word are its data, whatever their bits (R82). -/
theorem decode_fillFrom {n : Nat} {data : List CmdWord} (h : data.length = n) (rest : List CmdWord) :
    decode n (0x0600000000000000 :: (data ++ rest)) = .command (.fillFrom data) rest := by
  rw [← encodeWord_fillFrom data]
  exact decodeOfEncodeGivesCommandBack n (.fillFrom data) rest (beq_iff_eq.mpr h)

/-- Settles O4: each row is built from its command's columns, so it selects the words that pass the command's checks; OP tells
the rows apart. -/
theorem decoderAgreesWithMatchMaskTable : Obligations.DecoderAgreesWithMatchMaskTable := by
  refine ⟨fun w data op => ?_, fun w r hr r' hr' h h' => ?_, fun w r hr h hdata => ?_, fun d => dataWordOk_iff,
    fun n data rest hlen => decode_fillFrom hlen rest⟩
  · rw [exists_decodeWord_iff]
    constructor
    · exact fun h => ⟨op.maskRow, mem_maskTable.mpr ⟨op, rfl⟩, rfl, h⟩
    · rintro ⟨r, hr, hop, h⟩
      obtain ⟨op', rfl⟩ := mem_maskTable.mp hr
      cases hop
      exact h
  · obtain ⟨op, rfl⟩ := mem_maskTable.mp hr
    obtain ⟨op', rfl⟩ := mem_maskTable.mp hr'
    have hbyte : op.byte = op'.byte := (and_mask_eq_iff.mp h).1.symm.trans (and_mask_eq_iff.mp h').1
    rw [byte_injective hbyte]
  · obtain ⟨op, rfl⟩ := mem_maskTable.mp hr
    exact byte_ne_zero op ((and_mask_eq_iff.mp h).1.symm.trans (fieldOp_of_dataWordOk (dataWordOk_iff.mpr hdata)))

end Sys2Proof
end

section
/-! PROOFS. The statements of 30_encoding.md about a step of CMD: which words fault (R78, R79), how many words a step takes (R82,
R85), and the unrecognized orders (R80); and the rules' example words. -/

namespace Sys2Proof

/-! ## What R77 rejects -/

theorem byte_le (op : Opcode) : op.byte.toNat ≤ 0x0A := by cases op <;> decide

/-- R78: OP = 0x00 and OP above 0x0A select no command. -/
theorem ofByte_of_unassigned {b : BitVec 8} (h : b = 0x00 ∨ 0x0A < b.toNat) : Opcode.ofByte b = none :=
  Option.eq_none_iff_forall_ne_some.mpr fun op hop => by
    obtain rfl := byte_of_ofByte hop
    obtain h | h := h
    · exact byte_ne_zero op h
    · exact (byte_le op).not_gt h

theorem decodeWord_of_unassigned {w : CmdWord} (h : Opcode.ofByte (fieldOp w) = none) (data : List CmdWord) :
    decodeWord w data = .error .unassignedOpcode := by
  rw [decodeWord, h]

theorem usesOrd_of_ne {op : Opcode} (h : op ≠ .requestUpdate) : op.usesOrd = false := by
  cases op with
  | requestUpdate => exact absurd rfl h
  | setColor | getColor | setChannel | scaleChannel | fill | fillFrom | initTarget | enable | isReady => rfl

theorem usesIdx_of_not_mem {op : Opcode} (h : op ∉ [Opcode.setColor, .getColor, .setChannel, .scaleChannel]) :
    op.usesIdx = false := by
  cases op with
  | setColor | getColor | setChannel | scaleChannel => exact absurd (by decide) h
  | fill | fillFrom | initTarget | enable | isReady | requestUpdate => rfl

/-- A reserved part of DATA in its place in the command word. -/
theorem extractLsb'_fieldData {start len : Nat} (h : start + len ≤ 32) (w : CmdWord) :
    (fieldData w).extractLsb' start len = w.extractLsb' start len :=
  BitVec.extractLsb'_extractLsb'_of_le h

theorem format_hsv : ∀ op ∈ [Opcode.setColor, .fill], op.format = .hsv := by decide

theorem format_val8 : ∀ op ∈ [Opcode.setChannel, .scaleChannel], op.format = .val8 := by decide

theorem format_none : ∀ op ∈ [Opcode.getColor, .fillFrom, .enable, .isReady, .requestUpdate], op.format = .none := by decide

/-- Each clause of R79 is a check of R77 that fails, so a word one holds of is rejected. -/
theorem decodeWord_of_reserved {w : CmdWord} {op : Opcode} (hop : fieldOp w = op.byte)
    (h : w.extractLsb' 50 6 ≠ 0 ∨
      (op ≠ .requestUpdate ∧ w.extractLsb' 48 2 ≠ 0) ∨
      (op ∉ [Opcode.setColor, .getColor, .setChannel, .scaleChannel] ∧ w.extractLsb' 32 16 ≠ 0) ∨
      (op ∈ [Opcode.setColor, .fill] ∧ w.extractLsb' 24 8 ≠ 0) ∨
      (op ∈ [Opcode.setChannel, .scaleChannel] ∧ w.extractLsb' 8 24 ≠ 0) ∨
      (op ∈ [Opcode.getColor, .fillFrom, .enable, .isReady, .requestUpdate] ∧ w.extractLsb' 0 32 ≠ 0))
    (data : List CmdWord) : ∃ why, decodeWord w data = .error why := by
  cases hdec : decodeWord w data with
  | error why => exact ⟨why, rfl⟩
  | ok i =>
    exfalso
    obtain ⟨op', hop', hrsv, hord, hidx, hdata, -⟩ := decodeWord_eq_ok.mp hdec
    obtain rfl : op = op' := byte_injective (hop.symm.trans (byte_of_ofByte hop'))
    obtain h | ⟨hne, h⟩ | ⟨hunused, h⟩ | ⟨hmem, h⟩ | ⟨hmem, h⟩ | ⟨hmem, h⟩ := h
    · exact h hrsv
    · exact h (hord (usesOrd_of_ne hne))
    · exact h (hidx (usesIdx_of_not_mem hunused))
    · rw [format_hsv op hmem] at hdata
      exact h ((extractLsb'_fieldData (by decide) w).symm.trans (beq_iff_eq.mp hdata))
    · rw [format_val8 op hmem] at hdata
      exact h ((extractLsb'_fieldData (by decide) w).symm.trans (beq_iff_eq.mp hdata))
    · rw [format_none op hmem] at hdata
      exact h (beq_iff_eq.mp hdata)

/-! ## Data words -/

/-- A data word is bad by a non-zero bit in 63:32 or 31:24 (R74). -/
theorem dataWordOk_eq_false_iff {d : CmdWord} :
    dataWordOk d = false ↔ d.extractLsb' 32 32 ≠ 0 ∨ d.extractLsb' 24 8 ≠ 0 := by
  rw [Bool.eq_false_iff, Ne, dataWordOk, beq_iff_eq, extractLsb'_eq_zero_iff (high := 32) (low := 8), not_and_or]

end Sys2Proof

namespace Sys2Proof.Machine

theorem exists_firstBadDataWord {data : List CmdWord} (h : ∃ d ∈ data, dataWordOk d = false) :
    ∃ d ∈ data, dataWordOk d = false ∧ firstBadDataWord data = some d := by
  cases hfind : firstBadDataWord data with
  | some d => exact ⟨d, List.mem_of_find?_eq_some hfind, by simpa using List.find?_some hfind, rfl⟩
  | none =>
    obtain ⟨d, hd, hbad⟩ := h
    simpa [hbad] using List.find?_eq_none.mp hfind d hd

/-! ## A step of CMD with a word at the head of the stream -/

/-- No command changes the host's stream: CMD takes its words before (R44, R52). -/
theorem exec_host {i : Instr} {s t : State} (h : exec i s = .next t) : t.host = s.host := by
  obtain ⟨w, -, rfl⟩ | ⟨w, -, rfl⟩ | ⟨w, -, -, rfl⟩ | ⟨m, -, -, rfl⟩ | ⟨r, -, rfl⟩ | ⟨target, -, -, rfl⟩ | ⟨-, -, -, rfl⟩ |
    ⟨-, -, -, rfl⟩ | ⟨-, -, rfl⟩ | ⟨ord, -, -, rfl⟩ := exec_next_cases h
  · rfl
  · rfl
  · rfl
  · rfl
  · rfl
  · rfl
  · rw [enableSucceeded_eq, hardwareInitialize_frame]
  · rw [hardwareInitialize_frame]
  · rfl
  · rfl

section

variable {s : State} {w : CmdWord} {ws : List CmdWord}

/-- A rejected word faults with ILLEGAL_COMMAND and is taken with its data words, if OP says it has any (R77, R82). -/
theorem cmdStep_of_rejected {why : Reject} (hf : s.fault = false) (hs : s.host = w :: ws)
    (hlen : dataWordCount s.config.ledCapacity w ≤ ws.length)
    (h : decodeWord w (ws.take s.config.ledCapacity) = .error why) :
    cmdStep s = .next { s with
      host := ws.drop (dataWordCount s.config.ledCapacity w), fault := true, fcause := 0x01, fcmd := w } :=
  have hd : decode s.config.ledCapacity s.host = .illegal w why (ws.drop (dataWordCount s.config.ledCapacity w)) :=
    hs ▸ decode_of_decodeWord_error hlen h
  cmdStep_of_illegal hf hd

theorem cmdStep_of_awaitingData (hf : s.fault = false) (hd : decode s.config.ledCapacity s.host = .awaitingData) :
    cmdEnabled s = false ∧ cmdStep s = .fault .awaitingDataWords := by
  simp [cmdEnabled, cmdStep, hf, hd]

/-- With its data words there, a word is taken with them and nothing more, as a command or as an illegal word (R44, R82). -/
theorem cmdStep_takes_words (hf : s.fault = false) (hs : s.host = w :: ws)
    (hlen : dataWordCount s.config.ledCapacity w ≤ ws.length) :
    cmdEnabled s = true ∧ ∃ t, cmdStep s = .next t ∧ t.host = ws.drop (dataWordCount s.config.ledCapacity w) := by
  cases hdec : decodeWord w (ws.take s.config.ledCapacity) with
  | error why =>
    have hstep := cmdStep_of_rejected hf hs hlen hdec
    exact ⟨cmdEnabled_iff_next.mpr ⟨_, hstep⟩, _, hstep, rfl⟩
  | ok i =>
    have hd : decode s.config.ledCapacity s.host = .command i (ws.drop (dataWordCount s.config.ledCapacity w)) := by
      rw [hs]
      exact decode_of_decodeWord_ok hlen hdec
    have henabled : cmdEnabled s = true := cmdEnabled_iff.mpr ⟨hf, .inr ⟨i, _, hd⟩⟩
    obtain ⟨t, ht⟩ := cmdEnabled_iff_next.mp henabled
    exact ⟨henabled, t, ht, exec_host ((cmdStep_of_command hf hd).symm.trans ht)⟩

end

/-- Settles O5: such an OP selects no command, FILLFROM included, so the word is rejected and taken alone. -/
theorem unassignedOpcodeFaults : Obligations.UnassignedOpcodeFaults := by
  have hfaults : ∀ (s : State) (w : CmdWord) (ws : List CmdWord), s.fault = false → s.host = w :: ws →
      (fieldOp w = 0x00 ∨ 0x0A < (fieldOp w).toNat) →
      cmdStep s = .next { s with host := ws, fault := true, fcause := 0x01, fcmd := w } := by
    intro s w ws hf hs hop
    have hnone := ofByte_of_unassigned hop
    have hcount : dataWordCount s.config.ledCapacity w = 0 :=
      dataWordCount_of_ne fun h => by simp [h] at hnone
    have hstep := cmdStep_of_rejected hf hs (hcount.trans_le ws.length.zero_le) (decodeWord_of_unassigned hnone _)
    rwa [hcount, List.drop_zero] at hstep
  exact ⟨hfaults, fun s ws hf hs => hfaults s _ ws hf hs (.inl (by decide))⟩

/-- Settles O6: a failed check of R77 rejects the word, and a bad data word is found before any entry is written. -/
theorem nonzeroReservedFieldFaults : Obligations.NonzeroReservedFieldFaults := by
  constructor
  · intro s w ws op hf hs hop hlen h
    obtain ⟨why, hdec⟩ := decodeWord_of_reserved hop h (ws.take s.config.ledCapacity)
    by_cases hfill : op = .fillFrom
    · have hcount : dataWordCount s.config.ledCapacity w = s.config.ledCapacity :=
        dataWordCount_of_fillFrom (hfill ▸ hop)
      have hstep := cmdStep_of_rejected hf hs (hcount.trans_le (hlen hfill)) hdec
      rw [hcount] at hstep
      exact ⟨_, hstep, .inr ⟨hfill, rfl⟩⟩
    · have hcount : dataWordCount s.config.ledCapacity w = 0 :=
        dataWordCount_of_ne fun hw => hfill (byte_injective (hop.symm.trans hw))
      have hstep := cmdStep_of_rejected hf hs (hcount.trans_le ws.length.zero_le) hdec
      rw [hcount, List.drop_zero] at hstep
      exact ⟨_, hstep, .inl rfl⟩
  · intro s data rest hf hlen hs hbad
    simp only [← dataWordOk_eq_false_iff] at hbad ⊢
    obtain ⟨d, hd, hdbad, hfirst⟩ := exists_firstBadDataWord hbad
    have hdec : decode s.config.ledCapacity s.host = .command (.fillFrom data) rest := by
      rw [hs]
      exact decode_fillFrom hlen rest
    refine ⟨d, hd, hdbad, (cmdStep_of_command hf hdec).trans ?_⟩
    exact execFillFrom_of_bad (s := { s with host := rest }) hlen hfirst

/-- Settles O7: OP alone says how many data words to wait for, and they are taken with the word. -/
theorem fillFromWaitsForItsDataWords : Obligations.FillFromWaitsForItsDataWords := by
  refine fun s w ws hf hs => ⟨fun hop hshort => ?_, fun hop hlen => ?_, fun hop => ?_⟩
  · have hd : decode s.config.ledCapacity s.host = .awaitingData := by
      rw [hs]
      exact decode_of_short (hshort.trans_eq (dataWordCount_of_fillFrom hop).symm)
    obtain ⟨hdisabled, hstep⟩ := cmdStep_of_awaitingData hf hd
    refine ⟨hdisabled, hstep, fun ⟨_, _, hempty, _⟩ => ?_⟩
    rw [hs] at hempty
    cases hempty
  · have hcount : dataWordCount s.config.ledCapacity w = s.config.ledCapacity := dataWordCount_of_fillFrom hop
    simpa only [hcount] using cmdStep_takes_words hf hs (hcount.trans_le hlen)
  · have hcount : dataWordCount s.config.ledCapacity w = 0 := dataWordCount_of_ne hop
    simpa only [hcount, List.drop_zero] using cmdStep_takes_words hf hs (hcount.trans_le ws.length.zero_le)

/-! ## The unrecognized orders (R69, R80) -/

/-- Every order but RGB packs as GRB does (R97). -/
theorem pack_of_ne_rgb {ord : BitVec 2} (h : ord ≠ 0b01) : pack ord = pack 0b00 := by
  funext x
  rw [pack, if_neg h, pack, if_neg (by decide)]

/-- The pass depends on the order by what PACK makes of it (R98, R102). -/
theorem encodePass_congr {ord ord' : BitVec 2} (h : pack ord = pack ord') (s : State) :
    encodePass ord s = encodePass ord' s := by
  have hleds : ∀ count, encodeLeds s.config ord s.color s.tbuf count = encodeLeds s.config ord' s.color s.tbuf count := by
    intro count
    induction count with
    | zero => rfl
    | succ i ih => rw [encodeLeds, encodeLeds, ih, encodeLed, encodeLed, h]
  rw [encodePass, encodePass, hleds]

/-- Settles O39: each word is the encoding of its command, and the order reaches the buffer through PACK alone. -/
theorem unrecognizedOrderActsAsGrb : Obligations.UnrecognizedOrderActsAsGrb := by
  refine ⟨fun s ord hord => ?_, fun n rest => ⟨?_, ?_⟩⟩
  · have hne : ord ≠ 0b01 := by
      obtain rfl | rfl := hord <;> decide
    show execRequestUpdate ord s = execRequestUpdate 0b00 s
    rw [execRequestUpdate, encodePass_congr (pack_of_ne_rgb hne), execRequestUpdate]
  · exact decodeOfEncodeGivesCommandBack n (.requestUpdate 0b10) rest rfl
  · exact decodeOfEncodeGivesCommandBack n (.requestUpdate 0b11) rest rfl

/-- Settles O1: ten fixed words, each decoded by running the decoder. -/
theorem specExampleWordsDecode : Obligations.SpecExampleWordsDecode := by
  unfold Obligations.SpecExampleWordsDecode
  decide

end Sys2Proof.Machine
end

section
/-! PROOFS. The assembler of 30_encoding.md: each line of R83 is its command where every operand is in its range and is refused
elsewhere, and the pseudo-instructions give the words of R84. -/

namespace Sys2Proof.Machine

/-! ## Operands -/

theorem bind_ite_some {α β : Type} {p : Prop} [Decidable p] (a : α) (f : α → Option β) :
    ((if p then some a else none) >>= f) = if p then f a else none := by
  split_ifs <;> rfl

/-- A field is filled by the numbers up to its highest value. -/
theorem asmField_eq {bits top : Nat} (h : 2 ^ bits = top + 1) (n : Nat) :
    asmField bits n = if n ≤ top then some (BitVec.ofNat bits n) else none := by
  simp only [asmField, h, Nat.lt_succ_iff]

theorem asmField_byte (n : Nat) : asmField 8 n = if n ≤ 255 then some (BitVec.ofNat 8 n) else none := asmField_eq rfl n

theorem asmField_idx (n : Nat) : asmField 16 n = if n ≤ 65535 then some (BitVec.ofNat 16 n) else none := asmField_eq rfl n

theorem asmHsv_eq (h s v : Nat) : asmHsv h s v =
    if h ≤ 255 ∧ s ≤ 255 ∧ v ≤ 255 then some ⟨BitVec.ofNat 8 h, BitVec.ofNat 8 s, BitVec.ofNat 8 v⟩ else none := by
  simp only [asmHsv, asmField_byte, bind_ite_some, ite_and]
  rfl

/-- A list is assembled where each of its members is. -/
theorem mapM_ite {α β : Type} (p : α → Prop) [DecidablePred p] (f : α → β) (l : List α) :
    (l.mapM fun a => if p a then some (f a) else none) = if ∀ a ∈ l, p a then some (l.map f) else none := by
  induction l with
  | nil => rfl
  | cons a l ih =>
    rw [List.mapM_cons, ih]
    simp only [bind_ite_some, List.forall_mem_cons, ite_and]
    rfl

/-! ## Lines -/

section

variable (n idx : Nat)

theorem assemble_setColor (h s v : Nat) : assemble n (.setColor idx h s v) =
    if idx ≤ 65535 ∧ h ≤ 255 ∧ s ≤ 255 ∧ v ≤ 255 then
      some (.setColor (BitVec.ofNat 16 idx) ⟨BitVec.ofNat 8 h, BitVec.ofNat 8 s, BitVec.ofNat 8 v⟩)
    else none := by
  rw [assemble, asmField_idx, asmHsv_eq, bind_ite_some, bind_ite_some, ← ite_and]
  rfl

theorem assemble_getColor : assemble n (.getColor idx) =
    if idx ≤ 65535 then some (.getColor (BitVec.ofNat 16 idx)) else none := by
  rw [assemble, asmField_idx, bind_ite_some]
  rfl

theorem assemble_setChannel (v : Nat) : assemble n (.setChannel idx v) =
    if idx ≤ 65535 ∧ v ≤ 255 then some (.setChannel (BitVec.ofNat 16 idx) (BitVec.ofNat 8 v)) else none := by
  rw [assemble, asmField_idx, asmField_byte, bind_ite_some, bind_ite_some, ← ite_and]
  rfl

theorem assemble_scaleChannel (pct : Nat) : assemble n (.scaleChannel idx pct) =
    if idx ≤ 65535 ∧ pct ≤ 255 then some (.scaleChannel (BitVec.ofNat 16 idx) (BitVec.ofNat 8 pct)) else none := by
  rw [assemble, asmField_idx, asmField_byte, bind_ite_some, bind_ite_some, ← ite_and]
  rfl

theorem assemble_fill (h s v : Nat) : assemble n (.fill h s v) =
    if h ≤ 255 ∧ s ≤ 255 ∧ v ≤ 255 then some (.fill ⟨BitVec.ofNat 8 h, BitVec.ofNat 8 s, BitVec.ofNat 8 v⟩)
    else none := by
  rw [assemble, asmHsv_eq, bind_ite_some]
  rfl

/-- A data word's bits above its colour are 0 (R74). -/
theorem dataWordOfHsv_eq (c : Hsv) : dataWordOfHsv c = (0 : BitVec 40) ++ c.h ++ c.s ++ c.v := by
  apply BitVec.eq_of_toNat_eq
  simp only [dataWordOfHsv, dataOfHsv, BitVec.toNat_append]
  simp

theorem dataWordOk_dataWordOfHsv (c : Hsv) : dataWordOk (dataWordOfHsv c) = true := by
  rw [dataWordOfHsv_eq, dataWordOk, beq_iff_eq, BitVec.extractLsb'_append_eq_of_le (by decide),
    BitVec.extractLsb'_append_eq_of_le (by decide)]
  exact BitVec.extractLsb'_append_eq_left

theorem assemble_fillFrom (triples : List (Nat × Nat × Nat)) : assemble n (.fillFrom triples) =
    if triples.length = n ∧ ∀ t ∈ triples, t.1 ≤ 255 ∧ t.2.1 ≤ 255 ∧ t.2.2 ≤ 255 then
      some (.fillFrom (triples.map fun t =>
        dataWordOfHsv ⟨BitVec.ofNat 8 t.1, BitVec.ofNat 8 t.2.1, BitVec.ofNat 8 t.2.2⟩))
    else none := by
  simp only [assemble, asmHsv_eq, apply_ite (Option.map dataWordOfHsv), Option.map_some, Option.map_none]
  rw [mapM_ite, bind_ite_some, ← ite_and]
  rfl

theorem assemble_initTarget (target : Nat) : assemble n (.initTarget target) =
    if target ≤ 0xFFFFFFFF then some (.initTarget (BitVec.ofNat 32 target)) else none := by
  rw [assemble, asmField_eq (top := 0xFFFFFFFF) rfl, bind_ite_some]
  rfl

theorem assemble_order (k : Nat) : assemble n (.requestUpdate (.ord k)) =
    if k ≤ 3 then some (.requestUpdate (BitVec.ofNat 2 k)) else none := by
  rw [assemble, asmOrder, asmField_eq (top := 3) rfl, bind_ite_some]
  rfl

theorem assemble_off : assemble n (.off idx) =
    if idx ≤ 65535 then some (.off (BitVec.ofNat 16 idx)) else none := by
  rw [assemble, asmField_idx, bind_ite_some]
  rfl

end

/-! ## An assembled command is legal -/

/-- A command without data words is legal. -/
theorem legal_of_not_fillFrom {n : Nat} {i : Instr} (h : i.opcode ≠ .fillFrom) :
    WellFormed n i = true ∧ ∀ d ∈ dataWords i, dataWordOk d = true := by
  cases i with
  | fillFrom data => exact absurd rfl h
  | setColor | getColor | setChannel | scaleChannel | fill | initTarget | enable | isReady | requestUpdate =>
    exact ⟨rfl, fun _ hd => nomatch hd⟩

theorem legal_of_ite {n : Nat} {p : Prop} [Decidable p] {i j : Instr} (h : (if p then some j else none) = some i)
    (hj : j.opcode ≠ .fillFrom) : WellFormed n i = true ∧ ∀ d ∈ dataWords i, dataWordOk d = true := by
  split_ifs at h
  cases h
  exact legal_of_not_fillFrom hj

/-- Only a FILLFROM line gives a FILLFROM, and that has N data words, each made of a colour. -/
theorem legal_of_assemble {n : Nat} {l : AsmLine} {i : Instr} (h : assemble n l = some i) :
    WellFormed n i = true ∧ ∀ d ∈ dataWords i, dataWordOk d = true := by
  cases l with
  | fillFrom triples =>
    rw [assemble_fillFrom] at h
    split_ifs at h with hin
    cases h
    refine ⟨beq_iff_eq.mpr (by rw [List.length_map, hin.1]), List.forall_mem_map.mpr fun t _ => ?_⟩
    exact dataWordOk_dataWordOfHsv _
  | setColor idx h s v => exact legal_of_ite ((assemble_setColor ..).symm.trans h) nofun
  | getColor idx => exact legal_of_ite ((assemble_getColor ..).symm.trans h) nofun
  | setChannel idx v => exact legal_of_ite ((assemble_setChannel ..).symm.trans h) nofun
  | scaleChannel idx pct => exact legal_of_ite ((assemble_scaleChannel ..).symm.trans h) nofun
  | fill => exact legal_of_ite ((assemble_fill ..).symm.trans h) nofun
  | initTarget target => exact legal_of_ite ((assemble_initTarget ..).symm.trans h) nofun
  | off idx => exact legal_of_ite ((assemble_off ..).symm.trans h) nofun
  | requestUpdate o =>
    obtain ⟨ord, -, hi⟩ := Option.bind_eq_some_iff.mp h
    cases hi
    exact legal_of_not_fillFrom nofun
  | enable | isReady | clear | update =>
    cases h
    exact legal_of_not_fillFrom nofun

/-! ## The words of the pseudo-instructions (R84) -/

/-- A word of which only IDX is not 0 is the index moved to bit 32 (R66). -/
theorem fields_idx_eq_shiftLeft {idx : Nat} (h : idx ≤ 65535) :
    (0#8 ++ 0#6 ++ 0#2 ++ BitVec.ofNat 16 idx ++ 0#32 : BitVec (8 + 6 + 2 + 16 + 32)) = BitVec.ofNat 64 idx <<< 32 := by
  have hfields (x : BitVec 16) :
      (0#8 ++ 0#6 ++ 0#2 ++ x ++ 0#32 : BitVec (8 + 6 + 2 + 16 + 32)).toNat = x.toNat * 2 ^ 32 := by
    simp only [BitVec.toNat_append]
    simp [Nat.shiftLeft_eq]
  apply BitVec.eq_of_toNat_eq
  rw [hfields, BitVec.toNat_shiftLeft, BitVec.toNat_ofNat, BitVec.toNat_ofNat, Nat.shiftLeft_eq]
  omega

/-- OFF's word is SETCOLOR's OP and the index, since BLACK has DATA = 0. -/
theorem encode_off {idx : Nat} (h : idx ≤ 65535) :
    encode (.off (BitVec.ofNat 16 idx)) = [0x0100000000000000#64 ||| (BitVec.ofNat 64 idx <<< 32)] := by
  have hop : 0x0100000000000000#64 = (Opcode.byte .setColor ++ 0#6 ++ 0#2 ++ 0#16 ++ 0#32 : BitVec (8 + 6 + 2 + 16 + 32)) := by
    decide
  have hblack : dataOfHsv Hsv.black = 0#32 := by decide
  rw [hop, ← fields_idx_eq_shiftLeft h, BitVec.or_append, BitVec.or_append, BitVec.or_append, BitVec.or_append,
    BitVec.or_zero, BitVec.or_zero, BitVec.or_zero, BitVec.or_zero, BitVec.zero_or]
  show [packFields .setColor 0 (BitVec.ofNat 16 idx) (dataOfHsv Hsv.black)] = _
  rw [hblack]
  rfl

theorem assembleLine_of_parseLine {n : Nat} {line : List Char} {l : AsmLine} (h : parseLine line = some l) :
    assembleLine n line = (assemble n l).map encode := by
  rw [assembleLine, h]
  rfl

/-- Settles O8: each line by its own equation, and CLEAR and UPDATE are read from their characters. -/
theorem assemblerAnswersLegalCommands : Obligations.AssemblerAnswersLegalCommands := by
  refine ⟨fun n l i => legal_of_assemble, assemble_setColor, assemble_getColor, assemble_setChannel, assemble_scaleChannel,
    assemble_fill, fun n triples => ?_, assemble_initTarget, fun n => ⟨rfl, rfl⟩,
    fun n k => ⟨rfl, rfl, assemble_order n k⟩, fun n => ⟨?_, ?_⟩, fun n idx => ?_⟩
  · simpa only [dataWordOfHsv_eq] using assemble_fillFrom n triples
  · have hline : parseLine "CLEAR".toList = some .clear := by decide
    exact assembleLine_of_parseLine hline
  · have hline : parseLine "UPDATE".toList = some .update := by decide
    exact assembleLine_of_parseLine hline
  · rw [assemble_off]
    split_ifs with hidx
    · exact congrArg some (encode_off hidx)
    · rfl

end Sys2Proof.Machine
end

section
/-! PROOFS. The statements of 40_colorstore.md: what each ColorStore command writes (R88 to R93), its index fault (R87), and that
the colour store and the rest of the block stay apart (R94). -/

namespace Sys2Proof.Machine

open Host (Outcome)

section

variable {s : State}

/-! ## Reading COLOR after a write -/

theorem colorAt_writeColor (s : State) (i : Nat) (c : Hsv) (a : Nat) :
    (s.writeColor i c).colorAt a = if a = i then c else s.colorAt a :=
  Memory.read_write Hsv.black s.color i a c

theorem colorAt_writeColors (s : State) (f : Nat → Hsv) (a : Nat) :
    (s.writeColors f).colorAt a = if a < s.config.ledCapacity then f a else s.colorAt a := by
  rw [State.colorAt, writeColors_color, Memory.read_writeRange, Nat.zero_add, Nat.sub_zero]
  simp only [Nat.zero_le, true_and, State.colorAt]

/-! ## The commands with an index (R87 to R91) -/

section

variable {idx : BitVec 16} (hidx : idx.toNat < s.config.ledCapacity)

include hidx

theorem exec_setColor_of_lt (c : Hsv) : exec (.setColor idx c) s = .next (s.writeColor idx.toNat c) :=
  if_pos (decide_eq_true hidx)

theorem exec_getColor_of_lt :
    exec (.getColor idx) s = .next { s with result := resultOfColor (s.colorAt idx.toNat) } :=
  if_pos (decide_eq_true hidx)

theorem exec_setChannel_of_lt (v : Channel) :
    exec (.setChannel idx v) s = .next (s.writeColor idx.toNat { s.colorAt idx.toNat with v := v }) :=
  if_pos (decide_eq_true hidx)

theorem exec_scaleChannel_of_lt (pct : BitVec 8) : exec (.scaleChannel idx pct) s =
    .next (s.writeColor idx.toNat { s.colorAt idx.toNat with v := scaledChannel (s.colorAt idx.toNat).v pct }) :=
  if_pos (decide_eq_true hidx)

end

/-- With IDX >= N each of the four faults, its own word in FCMD (R87). -/
theorem exec_of_index_ge {i : Instr} (hi : i.opcode ∈ [Opcode.setColor, .getColor, .setChannel, .scaleChannel])
    (h : s.config.ledCapacity ≤ (fieldIdx (encodeWord i)).toNat) :
    exec i s = .next (raiseFault .indexRange (encodeWord i) s) := by
  have hbad : indexOk s (fieldIdx (encodeWord i)) ≠ true := by simpa [indexOk] using h
  cases i with
  | setColor | getColor | setChannel | scaleChannel =>
    rw [encodeWord, fieldIdx_packFields] at hbad
    exact if_neg hbad
  | fill | fillFrom | initTarget | enable | isReady | requestUpdate => simp [Instr.opcode] at hi

/-! ## SCALECHANNEL's arithmetic (R91) -/

theorem toNat_scaledChannel (v : Channel) (pct : BitVec 8) :
    (scaledChannel v pct).toNat = v.toNat * pct.toNat / 100 % 256 :=
  BitVec.toNat_ofNat _ _

theorem scaledChannel_hundred (v : Channel) : scaledChannel v 100 = v := by
  apply BitVec.eq_of_toNat_eq
  rw [toNat_scaledChannel, show (100 : BitVec 8).toNat = 100 from rfl, Nat.mul_div_cancel _ (by decide),
    Nat.mod_eq_of_lt v.isLt]

theorem scaledChannel_zero (v : Channel) : scaledChannel v 0 = 0 := by
  simp [scaledChannel]

/-! ## FILLFROM's data words (R74, R93) -/

theorem firstBadDataWord_eq_none {data : List CmdWord} (h : ∀ d ∈ data, d.extractLsb' 24 40 = 0) :
    firstBadDataWord data = none :=
  List.find?_eq_none.mpr fun d hd => by simp [dataWordOk, h d hd]

/-- The search stops at the lowest-numbered bad data word (R122). -/
theorem firstBadDataWord_append {good rest : List CmdWord} {bad : CmdWord} (hgood : ∀ d ∈ good, d.extractLsb' 24 40 = 0)
    (hbad : bad.extractLsb' 24 40 ≠ 0) : firstBadDataWord (good ++ bad :: rest) = some bad :=
  List.find?_eq_some_iff_append.mpr
    ⟨by simpa [dataWordOk] using hbad, good, rest, rfl, fun d hd => by simp [dataWordOk, hgood d hd]⟩

theorem dataColor_of_getElem? {data : List CmdWord} {n : Nat} {d : CmdWord} (h : data[n]? = some d) :
    dataColor data n = ⟨d.extractLsb' 16 8, d.extractLsb' 8 8, d.extractLsb' 0 8⟩ := by
  rw [dataColor, List.getD_eq_getElem?_getD, h, Option.getD_some, hsvOfDataWord, hsvOfData,
    extractLsb'_fieldData (by decide), extractLsb'_fieldData (by decide), extractLsb'_fieldData (by decide)]

/-! ## What a ColorStore command can do, and what it reads (R94) -/

/-- A ColorStore command faults, or writes COLOR alone, or is a GETCOLOR and writes RESULT alone. -/
theorem exec_colorStore_cases {i : Instr} {t : State}
    (hi : i.opcode ∈ [Opcode.setColor, .getColor, .setChannel, .scaleChannel, .fill, .fillFrom])
    (h : exec i s = .next t) :
    (∃ cause w, t = raiseFault cause w s) ∨ (i.opcode ≠ .getColor ∧ ∃ m, t = { s with color := m }) ∨
      (i.opcode = .getColor ∧ ∃ r, t = { s with result := r }) := by
  obtain ⟨w, -, ht⟩ | ⟨w, -, ht⟩ | ⟨w, -, -, ht⟩ | ⟨m, hop, -, ht⟩ | ⟨r, hop | hop | ⟨hop, -⟩, ht⟩ | ⟨-, hop, -, -⟩ |
    ⟨hop, -, -, -⟩ | ⟨hop, -, -, -⟩ | ⟨hop, -, -⟩ | ⟨-, hop, -, -⟩ := exec_next_cases h
  · exact .inl ⟨_, w, ht⟩
  · exact .inl ⟨_, w, ht⟩
  · exact .inl ⟨_, w, ht⟩
  · exact .inr (.inl ⟨fun hget => by simp [hget] at hop, m, ht⟩)
  · exact .inr (.inr ⟨hop, r, ht⟩)
  -- The commands of the controller are not among the six.
  all_goals simp [hop] at hi

/-- The state with other values in TBUF, BUSY, INIT, CFG, TARGET and the DMA state (R94). -/
def State.withController (tbuf : Memory PulseCode) (busy init cfg active : Bool) (target : Target) (pos : Nat)
    (s : State) : State :=
  { s with tbuf := tbuf, busy := busy, init := init, cfg := cfg, target := target, dmaActive := active, dmaPos := pos }

/-- A change of the state an outcome answers; a stop and a refusal answer none. -/
def mapNext (f : State → State) : Outcome State Fault Refusal → Outcome State Fault Refusal
  | .next s => .next (f s)
  | .fault r => .fault r
  | .refused r => .refused r

theorem execFillFrom_withController (data : List CmdWord) (tbuf : Memory PulseCode) (busy init cfg active : Bool)
    (target : Target) (pos : Nat) :
    execFillFrom data (s.withController tbuf busy init cfg active target pos) =
      mapNext (State.withController tbuf busy init cfg active target pos) (execFillFrom data s) := by
  by_cases hlen : data.length = s.config.ledCapacity
  · cases hbad : firstBadDataWord data with
    | some d =>
      rw [execFillFrom_of_bad hlen hbad]
      exact execFillFrom_of_bad hlen hbad
    | none =>
      rw [execFillFrom_of_good hlen hbad]
      exact execFillFrom_of_good hlen hbad
  · rw [execFillFrom_of_length_ne hlen]
    exact execFillFrom_of_length_ne hlen

/-- A ColorStore command does the same whatever the controller and the DMA agent hold, and leaves that as it is. -/
theorem exec_withController {i : Instr}
    (hi : i.opcode ∈ [Opcode.setColor, .getColor, .setChannel, .scaleChannel, .fill, .fillFrom])
    (tbuf : Memory PulseCode) (busy init cfg active : Bool) (target : Target) (pos : Nat) :
    exec i (s.withController tbuf busy init cfg active target pos) =
      mapNext (State.withController tbuf busy init cfg active target pos) (exec i s) := by
  cases i with
  | setColor idx | getColor idx | setChannel idx | scaleChannel idx =>
    symm
    exact apply_ite (mapNext _) (indexOk s idx = true) _ _
  | fill => rfl
  | fillFrom data => exact execFillFrom_withController data tbuf busy init cfg active target pos
  | initTarget | enable | isReady | requestUpdate => simp [Instr.opcode] at hi

/-! ## Who else writes COLOR (R94, R111) -/

/-- ENABLE's black fill, read back (R111). -/
theorem colorAt_enableSucceeded (s : State) (a : Nat) :
    (enableSucceeded s).colorAt a = if a < s.config.ledCapacity then Hsv.black else s.colorAt a :=
  colorAt_writeColors s (fun _ => Hsv.black) a

/-- Of the controller's commands only an ENABLE that sets INIT writes COLOR. -/
theorem exec_controller_color {i : Instr} {t : State}
    (hi : i.opcode ∈ [Opcode.initTarget, .enable, .isReady, .requestUpdate]) (h : exec i s = .next t) :
    t.color = s.color ∨ (i.opcode = .enable ∧ s.init = false ∧ t.init = true ∧
      ∀ a, t.colorAt a = if a < s.config.ledCapacity then Hsv.black else s.colorAt a) := by
  obtain ⟨w, -, rfl⟩ | ⟨w, -, rfl⟩ | ⟨w, -, -, rfl⟩ | ⟨m, hop, -, -⟩ | ⟨r, -, rfl⟩ | ⟨target, -, -, rfl⟩ |
    ⟨hop, hinit, -, rfl⟩ | ⟨-, -, -, rfl⟩ | ⟨-, -, rfl⟩ | ⟨ord, -, -, rfl⟩ := exec_next_cases h
  · exact .inl rfl
  · exact .inl rfl
  · exact .inl rfl
  · have hcolorStore : ∀ op ∈ [Opcode.setColor, .setChannel, .scaleChannel, .fill, .fillFrom],
        op ∉ [Opcode.initTarget, .enable, .isReady, .requestUpdate] := by decide
    exact absurd hi (hcolorStore _ hop)
  · exact .inl rfl
  · exact .inl rfl
  · refine .inr ⟨hop, hinit, rfl, fun a => ?_⟩
    rw [colorAt_enableSucceeded, hardwareInitialize_frame]
    rfl
  · rw [hardwareInitialize_frame]
    exact .inl rfl
  · exact .inl rfl
  · exact .inl rfl

/-- The DMA agent leaves COLOR (R133, R134). -/
theorem dmaStep_color {t : State} (h : dmaStep s = .next t) : t.color = s.color := by
  obtain ⟨-, ⟨-, rfl⟩ | ⟨-, rfl⟩⟩ := dmaStep_next_cases h
  · rfl
  · rfl

end

/-! ## The statements -/

/-- Settles O13: the entry written reads as the colour, every other as before. -/
theorem setColorStoresItsEntry : Obligations.SetColorStoresItsEntry := fun s idx c hidx =>
  ⟨_, exec_setColor_of_lt hidx c, colorAt_writeColor s idx.toNat c, rfl⟩

/-- Settles O14: RESULT's colour format is the one the rule writes out. -/
theorem getColorReadsItsEntry : Obligations.GetColorReadsItsEntry := fun _ _ hidx => exec_getColor_of_lt hidx

/-- Settles O15: the entry is written with its own h and s. -/
theorem setChannelKeepsHueAndSaturation : Obligations.SetChannelKeepsHueAndSaturation := fun s idx v hidx =>
  ⟨_, exec_setChannel_of_lt hidx v, colorAt_writeColor_same s idx.toNat _,
    fun a ha => (colorAt_writeColor s idx.toNat _ a).trans (if_neg ha), rfl⟩

/-- Settles O16: the entry is written with its own h and s, and the scaled channel is an 8-bit value. -/
theorem scaleChannelTruncatesAndWraps : Obligations.ScaleChannelTruncatesAndWraps := by
  refine ⟨fun s idx pct hidx => ⟨_, exec_scaleChannel_of_lt hidx pct, ?_⟩,
    fun v => ⟨scaledChannel_hundred v, scaledChannel_zero v⟩⟩
  rw [colorAt_writeColor_same]
  exact ⟨toNat_scaledChannel _ pct, rfl, rfl, fun a ha => (colorAt_writeColor s idx.toNat _ a).trans (if_neg ha), rfl⟩

/-- Settles O17: the range written is 0 to N-1. -/
theorem fillWritesEveryEntry : Obligations.FillWritesEveryEntry := fun s c =>
  ⟨_, rfl, colorAt_writeColors s fun _ => c, rfl⟩

/-- Settles O18: no data word is bad, and entry n is written from data word n, which exists for n < N alone. -/
theorem fillFromCopiesInIndexOrder : Obligations.FillFromCopiesInIndexOrder := by
  refine fun s data hlen hgood =>
    ⟨_, execFillFrom_of_good hlen (firstBadDataWord_eq_none hgood), fun n d hd => ?_, fun a ha => ?_, rfl⟩
  · have hn : n < s.config.ledCapacity := by
      obtain ⟨hn, -⟩ := List.getElem?_eq_some_iff.mp hd
      exact hn.trans_eq hlen
    rw [colorAt_writeColors, if_pos hn, dataColor_of_getElem? hd]
  · rw [colorAt_writeColors, if_neg ha.not_gt]

/-- Settles O19: the first bad data word faults before any entry is written. -/
theorem fillFromReportsFirstBadDataWord : Obligations.FillFromReportsFirstBadDataWord :=
  fun _ _ _ _ hlen hgood hbad => execFillFrom_of_bad hlen (firstBadDataWord_append hgood hbad)

/-- Settles O21: the word at the head is the command's encoding, it is taken alone, and its IDX is the command's. -/
theorem indexOutOfRangeFaults : Obligations.IndexOutOfRangeFaults := by
  intro s w ws rest i hf hs hd hi hidx
  obtain ⟨w', ws', hs', hdec, hrest⟩ := exists_word_of_decode hd
  cases hs.symm.trans hs'
  have hw : encodeWord i = w := encodeWord_of_decodeWord hdec
  have hcount : dataWordCount s.config.ledCapacity w = 0 := by
    refine dataWordCount_of_ne fun hop => ?_
    rw [← hw, fieldOp_encodeWord] at hop
    simp [byte_injective hop] at hi
  rw [hcount, List.drop_zero] at hrest
  subst hw hrest
  rw [cmdStep_of_command hf hd]
  exact exec_of_index_ge (s := { s with host := rest }) hi hidx

/-- Settles O22: a ColorStore command by `exec_colorStore_cases` and `exec_withController`, the controller's by
`exec_controller_color`. -/
theorem colorStoreAndTheRestStayApart : Obligations.ColorStoreAndTheRestStayApart := by
  refine ⟨fun s t i hi h => ?_, fun s t i => exec_controller_color, fun s ord => encodePass_color ord s,
    fun s t => dmaStep_color⟩
  have hrest : ∀ tbuf busy init cfg active target pos,
      exec i (s.withController tbuf busy init cfg active target pos) =
        .next (t.withController tbuf busy init cfg active target pos) := by
    intro tbuf busy init cfg active target pos
    rw [exec_withController hi, h, mapNext]
  obtain ⟨cause, w, rfl⟩ | ⟨hop, m, rfl⟩ | ⟨hop, r, rfl⟩ := exec_colorStore_cases hi h
  · exact ⟨rfl, fun _ => rfl, fun _ => rfl, hrest⟩
  · exact ⟨rfl, fun _ => rfl, fun hget => absurd hget hop, hrest⟩
  · exact ⟨rfl, fun hne => absurd hop hne, fun _ => rfl, hrest⟩

end Sys2Proof.Machine
end

section
/-! PROOFS. The statements of 41_encoder.md: where PACK puts each channel (R96, R97), which slots ENCODELED writes (R98 to R101),
and what a transfer puts on WIRE (R102, R104, R105). -/

namespace Sys2Proof.Machine

/-! ## PACK (R96, R97) -/

theorem pack_rgb (x : Rgb) : pack 0b01 x = x.r ++ x.g ++ x.b := rfl

theorem pack_grb (x : Rgb) : pack 0b00 x = x.g ++ x.r ++ x.b := rfl

/-- Three channels packed, read back one by one. -/
theorem extractLsb'_channels (a b c : Channel) :
    (a ++ b ++ c).extractLsb' 16 8 = a ∧ (a ++ b ++ c).extractLsb' 8 8 = b ∧ (a ++ b ++ c).extractLsb' 0 8 = c := by
  refine ⟨?_, ?_, BitVec.extractLsb'_append_eq_right⟩
  · rw [BitVec.extractLsb'_append_eq_of_le (by decide)]
    exact BitVec.extractLsb'_append_eq_left
  · rw [BitVec.extractLsb'_append_eq_of_le (by decide)]
    exact BitVec.extractLsb'_append_eq_right

/-- Settles O24: order RGB packs red, green, blue; the corner cases and the example are fixed words. -/
theorem packRgbPlacesRedFirst : Obligations.PackRgbPlacesRedFirst := by
  refine ⟨fun x => extractLsb'_channels x.r x.g x.b, fun ord => ⟨pack_zero ord, ?_⟩, by decide⟩
  by_cases hrgb : ord = 0b01
  · rw [hrgb, pack_rgb]
    decide
  · rw [pack_of_ne_rgb hrgb, pack_grb]
    decide

/-- Settles O25: every order but RGB packs as GRB does. -/
theorem packOtherOrdersPlaceGreenFirst : Obligations.PackOtherOrdersPlaceGreenFirst := by
  refine ⟨fun ord x hne => ?_, by decide, by decide⟩
  rw [pack_of_ne_rgb hne]
  exact extractLsb'_channels x.g x.r x.b

/-! ## ENCODELED (R98 to R101) -/

section

variable (c : Config) (x : Rgb) (i : Nat) (tbuf : Memory PulseCode)

/-- Slot 24*i + k after ENCODELED (R98). -/
theorem read_encodeLed_own (ord : BitVec 2) {k : Nat} (hk : k < 24) :
    Memory.read 0 (encodeLed c ord x i tbuf) (24 * i + k) = codeOf c ((pack ord x).getLsbD (23 - k)) := by
  rw [read_encodeLed, if_pos (by omega), Nat.add_sub_cancel_left]

/-- Slots of other LEDs after ENCODELED (R100). -/
theorem read_encodeLed_other (ord : BitVec 2) {j : Nat} (hj : j < 24 * i ∨ 24 * i + 24 ≤ j) :
    Memory.read 0 (encodeLed c ord x i tbuf) j = Memory.read 0 tbuf j := by
  rw [read_encodeLed, if_neg (by omega)]

/-- The eight slots from `first` on hold the channel whose lowest bit is bit 16 - `first` of the packed word, its most
significant bit first (R98). -/
theorem read_encodeLed_channel {ord : BitVec 2} {first low k : Nat} {ch : Channel} (hlow : first + low = 16) (hk : k < 8)
    (hch : (pack ord x).extractLsb' low 8 = ch) :
    Memory.read 0 (encodeLed c ord x i tbuf) (24 * i + first + k) = codeOf c (ch.getLsbD (7 - k)) := by
  have hbit : 23 - (first + k) = low + (7 - k) := by omega
  have hchBit : ch.getLsbD (7 - k) = (pack ord x).getLsbD (low + (7 - k)) := by
    rw [← hch, BitVec.getLsbD_extractLsb', decide_eq_true (by omega), Bool.true_and]
  rw [Nat.add_assoc, read_encodeLed_own c x i tbuf ord (by omega), hbit, hchBit]

end

/-- Settles O26: the LED's own slots by `read_encodeLed_own`, all others by `read_encodeLed_other`. -/
theorem encodeLedWritesExactlyItsSlots : Obligations.EncodeLedWritesExactlyItsSlots :=
  fun c ord x i tbuf =>
    ⟨fun _ hk => read_encodeLed_own c x i tbuf ord hk, fun _ hj => read_encodeLed_other c x i tbuf ord hj⟩

/-- Settles O27: each run of eight slots holds one channel, red, green, blue under RGB and green, red, blue under GRB. -/
theorem channelOrdersSwapRedAndGreen : Obligations.ChannelOrdersSwapRedAndGreen := by
  intro c x i tbuf k hk
  obtain ⟨hred, hgreen, hblue⟩ := packRgbPlacesRedFirst.1 x
  obtain ⟨hgreen', hred', hblue'⟩ := packOtherOrdersPlaceGreenFirst.1 0b00 x (by decide)
  have hslots := @read_encodeLed_channel c x i tbuf
  exact ⟨(hslots rfl hk hblue).trans (hslots rfl hk hblue').symm,
    (hslots (first := 0) rfl hk hred).trans (hslots rfl hk hred').symm,
    (hslots rfl hk hgreen).trans (hslots (first := 0) rfl hk hgreen').symm⟩

/-! ## A transfer from its open frame to the closed one (R105, R133, R134) -/

/-- DMA_EMIT is the DMA agent's step before the end of the buffer (R133). -/
theorem dmaStep_of_pos_lt {s : State} (hactive : s.dmaActive = true) (hpos : s.dmaPos < s.config.bufferLength) :
    dmaStep s = .next (dmaEmit s) := by
  rw [dmaStep, if_pos (dmaEnabled_iff.mpr ⟨hactive, hpos.le⟩), if_pos hpos]

/-- DMA_COMPLETE is the DMA agent's step at the end of the buffer (R134). -/
theorem dmaStep_of_pos_eq {s : State} (hactive : s.dmaActive = true) (hpos : s.dmaPos = s.config.bufferLength) :
    dmaStep s = .next (dmaComplete s) := by
  rw [dmaStep, if_pos (dmaEnabled_iff.mpr ⟨hactive, hpos.le⟩), if_neg hpos.not_lt]

/-- `s` with its transfer finished: after the frames `done` one closed frame of TBUF[0] to TBUF[L-1], the transfer's registers
cleared (R134), and the moves `ms` left. -/
def State.afterTransfer (s : State) (done : List Frame) (ms : List Move) : State :=
  { s with
    wire := done ++ [⟨(List.range s.config.bufferLength).map s.slotAt, .closed⟩]
    dmaActive := false, dmaPos := 0, busy := false, moves := ms }

/-- The L - DMA_POS emits and the completion, by induction on the slots still to emit: the open frame is at each point the
slots emitted, and no emit changes what the transfer ends in. -/
theorem run_transfer {done : List Frame} (hdone : ∀ f ∈ done, f.status ≠ .inFlight) {ms : List Move} (left : Nat)
    {s : State} (hactive : s.dmaActive = true) (hleft : s.dmaPos + left = s.config.bufferLength)
    (hwire : s.wire = done ++ [⟨s.emitted, .inFlight⟩]) (hmoves : s.moves = List.replicate (left + 1) .dma ++ ms) :
    Sys2Proof.core.run (left + 1) s = .next (s.afterTransfer done ms) := by
  induction left generalizing s with
  | zero =>
    have hstep : step s = .next { dmaComplete s with moves := ms } :=
      (step_of_moves hmoves).trans (dmaStep_of_pos_eq (s := { s with moves := ms }) hactive hleft)
    have hclosed : s.wire.map Frame.close = done ++ [⟨s.emitted, .closed⟩] :=
      hwire ▸ map_last_open (fun _ => Frame.close_of_not_open) hdone _
    have hpos : s.dmaPos = s.config.bufferLength := hleft
    rw [core_run_next hstep, State.afterTransfer, ← hpos]
    simp only [Host.Core.run, dmaComplete, hclosed, State.emitted]
  | succ n ih =>
    have hstep : step s = .next { dmaEmit s with moves := List.replicate (n + 1) .dma ++ ms } :=
      (step_of_moves hmoves).trans (dmaStep_of_pos_lt (s := { s with moves := _ }) hactive (by simp only; omega))
    have hemitted : (dmaEmit s).wire = done ++ [⟨(dmaEmit s).emitted, .inFlight⟩] := by
      rw [dmaEmit_wire, hwire, map_last_open (fun _ => Frame.emit_of_not_open _) hdone]
      exact congrArg (fun codes => done ++ [⟨codes, .inFlight⟩]) (emitted_succ s s.dmaPos).symm
    rw [core_run_next hstep]
    exact ih (s := { dmaEmit s with moves := _ }) hactive (by simp only [dmaEmit_dmaPos, dmaEmit_config]; omega) hemitted rfl

/-- Settles O58: the invariant gives the open frame, and `run_transfer` the run. -/
theorem transferSendsWholeBuffer : Obligations.TransferSendsWholeBuffer := by
  intro s ms h hactive hmoves
  obtain ⟨done, hwire, hdone⟩ := h.wireActive hactive
  have hpos := h.posBound
  rw [bufferLength_eq] at hpos
  exact ⟨done, s.emitted, hwire, run_transfer (fun f hf => (hdone f hf).notOpen) _ hactive
    (Nat.add_sub_of_le hpos) hwire hmoves⟩

/-! ## An accepted REQUESTUPDATE, from the command to the line (R102, R104, R105) -/

/-- REQUESTUPDATE with INIT = 1 and BUSY = 0 is the pass and START (R115). -/
theorem execRequestUpdate_of_ready {s : State} (hinit : s.init = true) (hbusy : s.busy = false) (ord : BitVec 2) :
    exec (.requestUpdate ord) s = .next (startTransfer (encodePass ord s)) := by
  have hready : s.ready = true := by simp [State.ready, hinit, hbusy]
  exact if_pos hready

/-- A slot after the pass, by LED and bit (R102). -/
theorem slotAt_encodePass (ord : BitVec 2) (s : State) {i k : Nat} (hi : i < s.config.ledCapacity) (hk : k < 24) :
    (encodePass ord s).slotAt (24 * i + k) =
      codeOf s.config ((pack ord (hsvToRgb s.config (s.colorAt i))).getLsbD (23 - k)) := by
  have hdiv : (24 * i + k) / 24 = i := by omega
  have hmod : (24 * i + k) % 24 = k := by omega
  rw [State.slotAt, encodePass_tbuf, read_encodeLeds, if_pos (by omega), hdiv, hmod, State.colorAt]

/-- A frame of L codes has a code for each bit of each LED (R48). -/
theorem codeOfLed_range_map (n : Nat) (slot : Nat → PulseCode) (status : FrameStatus) {i k : Nat} (hi : i < n) (hk : k < 24) :
    Frame.codeOfLed ⟨(List.range (24 * n)).map slot, status⟩ i k = some (slot (24 * i + k)) := by
  have hlt : 24 * i + k < 24 * n := by omega
  simp [Frame.codeOfLed, bitsPerLed, List.getElem?_range hlt]

/-- The code of a bit is a long high pulse exactly when the bit is 1, where the two codes differ (R104). -/
theorem codeProduces_codeOf {c : Config} (hne : c.oneCode ≠ c.zeroCode) (bit : Bool) :
    CodeProduces c (codeOf c bit) .longHighShortLow ↔ bit = true := by
  cases bit with
  | false => simp [codeOf, hne.symm]
  | true => exact ⟨fun _ => rfl, fun _ => .inl ⟨rfl, rfl⟩⟩

/-- Settles O60: the pass puts each bit's code in its slot, and the transfer puts the slots on WIRE in order. -/
theorem acceptedUpdateReachesTheLine : Obligations.AcceptedUpdateReachesTheLine := by
  intro s ord ms h hinit hbusy hmoves
  have hidle : s.dmaActive = false := h.busyIsActive ▸ hbusy
  have hrun : Sys2Proof.core.run (24 * s.config.ledCapacity + 1) (startTransfer (encodePass ord s)) =
      .next ((startTransfer (encodePass ord s)).afterTransfer s.wire ms) :=
    run_transfer (fun f hf => (h.wireIdle hidle f hf).notOpen) _ rfl (Nat.zero_add _) rfl hmoves
  refine ⟨_, _, _, execRequestUpdate_of_ready hinit hbusy ord, hrun, rfl, ?_, rfl, rfl, rfl, fun i k hi hk => ?_⟩
  · simp [Frame.complete, bufferLength_eq]
  · exact ⟨_, (codeOfLed_range_map _ _ _ hi hk).trans (congrArg some (slotAt_encodePass ord s hi hk)), rfl,
      fun hne => codeProduces_codeOf hne _⟩

end Sys2Proof.Machine
end

section
/-! PROOFS. The statements of 42_controller.md: what each controller command writes (R108 to R115), and the transitions of the
controller's state (R107). -/

namespace Sys2Proof.Machine

section

variable {s t : State}

/-! ## READY (R34, R113) -/

theorem State.ready_iff : s.ready = true ↔ s.init = true ∧ s.busy = false := by
  rw [State.ready, Bool.and_eq_true, Bool.not_eq_true']

/-! ## INITIALIZE (R108, R109) -/

theorem exec_initTarget_of_busy (hbusy : s.busy = true) (target : Target) :
    exec (.initTarget target) s = .next (raiseFault .initWhileBusy (encodeWord (.initTarget target)) s) :=
  if_pos hbusy

theorem exec_initTarget_of_not_busy (hbusy : s.busy = false) (target : Target) :
    exec (.initTarget target) s = .next { s.zeroFillTbuf with target := target, cfg := true } :=
  if_neg (Bool.eq_false_iff.mp hbusy)

theorem slotAt_zeroFillTbuf (s : State) (j : Nat) :
    s.zeroFillTbuf.slotAt j = if j < 24 * s.config.ledCapacity then 0 else s.slotAt j := by
  rw [State.slotAt, zeroFillTbuf_tbuf, Memory.read_writeRange, Nat.zero_add, bufferLength_eq]
  simp only [Nat.zero_le, true_and, State.slotAt]

/-! ## ENABLE (R110 to R112) -/

theorem exec_enable_of_init (hinit : s.init = true) : exec .enable s = .next { s with result := 1 } :=
  if_pos hinit

/-- The pass over a black strip leaves ZERO_CODE in every slot of the buffer and keeps the others (R111). -/
theorem slotAt_enableSucceeded (s : State) (j : Nat) : (enableSucceeded s).slotAt j =
    if j < 24 * s.config.ledCapacity then s.config.zeroCode else s.slotAt j := by
  rw [State.slotAt, enableSucceeded_eq, read_encodeLeds]
  split_ifs with hj
  · have hled : j / 24 < s.config.ledCapacity := by omega
    have hblack : Memory.read Hsv.black (s.writeColors fun _ => Hsv.black).color (j / 24) = Hsv.black :=
      (colorAt_writeColors s (fun _ => Hsv.black) (j / 24)).trans (if_pos hled)
    rw [hblack, hsvToRgb_black, pack_zero]
    simp [codeOf]
  · rfl

/-- The state after a call of hardwareInitialize: `s` but for the model's record of its draws (R132). -/
def State.afterDraw (s : State) : State :=
  { s with draws := (hardwareInitialize s).2.draws, freeCount := (hardwareInitialize s).2.freeCount }

theorem exec_enable_of_success (hinit : s.init = false) (hdraw : (hardwareInitialize s).1 = true) :
    exec .enable s = .next (enableSucceeded s.afterDraw) := by
  rw [State.afterDraw, ← hardwareInitialize_frame]
  simp [exec, execEnable_eq, hinit, hdraw]

theorem exec_enable_of_failure (hinit : s.init = false) (hdraw : (hardwareInitialize s).1 = false) :
    exec .enable s = .next { s.afterDraw with result := 0 } := by
  rw [State.afterDraw, ← hardwareInitialize_frame]
  simp [exec, execEnable_eq, hinit, hdraw]

/-! ## REQUESTUPDATE (R114, R115) -/

theorem exec_requestUpdate_of_not_ready (h : s.ready = false) (ord : BitVec 2) : exec (.requestUpdate ord) s = .next s :=
  if_neg (Bool.eq_false_iff.mp h)

/-- Slots from L on after the pass (R102). -/
theorem slotAt_encodePass_of_ge (ord : BitVec 2) (s : State) {j : Nat} (hj : 24 * s.config.ledCapacity ≤ j) :
    (encodePass ord s).slotAt j = s.slotAt j := by
  rw [State.slotAt, encodePass_tbuf, read_encodeLeds, if_neg hj.not_gt, State.slotAt]

/-! ## The transitions of the controller's state (R35, R107) -/

theorem controller_uninit (hcfg : s.cfg = false) (hinit : s.init = false) (hbusy : s.busy = false) :
    s.controller = some .uninit := by
  simp [State.controller, hcfg, hinit, hbusy]

theorem controller_configured (hcfg : s.cfg = true) (hinit : s.init = false) (hbusy : s.busy = false) :
    s.controller = some .configured := by
  simp [State.controller, hcfg, hinit, hbusy]

theorem controller_idle (hcfg : s.cfg = true) (hinit : s.init = true) (hbusy : s.busy = false) :
    s.controller = some .idle := by
  simp [State.controller, hcfg, hinit, hbusy]

theorem controller_busy (hcfg : s.cfg = true) (hinit : s.init = true) (hbusy : s.busy = true) :
    s.controller = some .busy := by
  simp [State.controller, hcfg, hinit, hbusy]

/-- The rows of R107 that change the controller's state, a reset apart. -/
inductive ControllerTransition : ControllerState → ControllerState → Prop where
  /-- INITIALIZE (R108). -/
  | configure : ControllerTransition .uninit .configured
  /-- A successful ENABLE (R111). -/
  | enable : ControllerTransition .configured .busy
  /-- An accepted REQUESTUPDATE (R115). -/
  | update : ControllerTransition .idle .busy
  /-- DMA_COMPLETE (R134). -/
  | complete : ControllerTransition .busy .idle

/-- From `s` to `t` the controller keeps its state or takes one transition of R107. -/
def ControllerFollows (s t : State) : Prop :=
  t.controller = s.controller ∨
    ∃ a b, s.controller = some a ∧ t.controller = some b ∧ ControllerTransition a b

/-- INITIALIZE configures an uninitialized block, and leaves the controller's state of any other as it is (R108). -/
theorem State.Inv.follows_initTarget (h : s.Inv) (hbusy : s.busy = false) (target : Target) :
    ControllerFollows s { s.zeroFillTbuf with target := target, cfg := true } := by
  cases hcfg : s.cfg with
  | true => exact .inl (by simp [State.controller, hcfg])
  | false =>
    have hinit : s.init = false := Bool.eq_false_iff.mpr fun hset => nomatch hcfg.symm.trans (h.initCfg hset)
    exact .inr ⟨_, _, controller_uninit hcfg hinit hbusy, controller_configured rfl hinit hbusy, .configure⟩

/-- A successful ENABLE had a target, so the block was configured, and it was not busy (R37, R111). -/
theorem State.Inv.follows_enable (h : s.Inv) (hinit : s.init = false) (hdraw : (hardwareInitialize s).1 = true) :
    ControllerFollows s (enableSucceeded (hardwareInitialize s).2) := by
  have hcfg : s.cfg = true := h.targetCfg (target_of_hardwareInitialize hdraw)
  have hbusy : s.busy = false := h.busyIsActive.trans (h.idle_of_not_init hinit)
  rw [hardwareInitialize_frame]
  exact .inr ⟨_, _, controller_configured hcfg hinit hbusy, controller_busy hcfg rfl rfl, .enable⟩

/-- An accepted REQUESTUPDATE found the block idle (R115). -/
theorem State.Inv.follows_update (h : s.Inv) (hready : s.ready = true) (ord : BitVec 2) :
    ControllerFollows s (startTransfer (encodePass ord s)) := by
  obtain ⟨hinit, hbusy⟩ := State.ready_iff.mp hready
  have hcfg : s.cfg = true := h.initCfg hinit
  exact .inr ⟨_, _, controller_idle hcfg hinit hbusy, controller_busy hcfg hinit rfl, .update⟩

/-- DMA_COMPLETE finds the block busy (R36, R37, R134). -/
theorem State.Inv.follows_complete (h : s.Inv) (hactive : s.dmaActive = true) : ControllerFollows s (dmaComplete s) := by
  have hbusy : s.busy = true := h.busyIsActive.trans hactive
  have hinit : s.init = true := h.busyInit hbusy
  have hcfg : s.cfg = true := h.initCfg hinit
  exact .inr ⟨_, _, controller_busy hcfg hinit hbusy, controller_idle hcfg hinit rfl, .complete⟩

theorem State.Inv.follows_exec (h : s.Inv) {i : Instr} (ht : exec i s = .next t) : ControllerFollows s t := by
  obtain ⟨w, -, rfl⟩ | ⟨w, -, rfl⟩ | ⟨w, -, -, rfl⟩ | ⟨m, -, -, rfl⟩ | ⟨r, -, rfl⟩ | ⟨target, -, hbusy, rfl⟩ |
    ⟨-, hinit, hdraw, rfl⟩ | ⟨-, -, -, rfl⟩ | ⟨-, -, rfl⟩ | ⟨ord, -, hready, rfl⟩ := exec_next_cases ht
  · exact .inl rfl
  · exact .inl rfl
  · exact .inl rfl
  · exact .inl rfl
  · exact .inl rfl
  · exact h.follows_initTarget hbusy target
  · exact h.follows_enable hinit hdraw
  · rw [hardwareInitialize_frame]
    exact .inl rfl
  · exact .inl rfl
  · exact h.follows_update hready ord

theorem State.Inv.follows_cmdStep (h : s.Inv) (ht : cmdStep s = .next t) : ControllerFollows s t := by
  obtain ⟨-, ⟨w, why, rest, -, rfl⟩ | ⟨i, rest, -, hexec⟩⟩ := cmdStep_next_cases ht
  · exact .inl rfl
  · exact State.Inv.follows_exec (s := { s with host := rest }) (h.of_inputs rfl) hexec

theorem State.Inv.follows_dmaStep (h : s.Inv) (ht : dmaStep s = .next t) : ControllerFollows s t := by
  obtain ⟨hactive, ⟨-, rfl⟩ | ⟨-, rfl⟩⟩ := dmaStep_next_cases ht
  · exact .inl rfl
  · exact h.follows_complete hactive

theorem State.Inv.follows_perform (h : s.Inv) {m : Move} (ht : perform m s = .next t)
    (hm : ∀ keepWire, m ≠ .reset keepWire) : ControllerFollows s t := by
  cases m with
  | cmd => exact h.follows_cmdStep ht
  | dma => exact h.follows_dmaStep ht
  | reset keepWire => exact absurd rfl (hm keepWire)
  | supply | hold =>
    cases ht
    exact .inl rfl

end

/-! ## The statements -/

/-- Settles O30: the range of slots filled is 0 to L-1. -/
theorem initializeZeroFillsAndRecordsTarget : Obligations.InitializeZeroFillsAndRecordsTarget := fun s target hbusy =>
  ⟨_, exec_initTarget_of_not_busy hbusy target, slotAt_zeroFillTbuf s, rfl⟩

/-- Settles O31: the fault is taken before anything else is written. -/
theorem initializeWhileBusyFaults : Obligations.InitializeWhileBusyFaults := fun _ target hbusy =>
  exec_initTarget_of_busy hbusy target

/-- Settles O33: INIT = 1 is asked before the hardware is. -/
theorem enableIsIdempotent : Obligations.EnableIsIdempotent :=
  ⟨fun _ hinit => exec_enable_of_init hinit, by decide⟩

/-- Settles O34: after the draw the black fill and the pass over it, read back. -/
theorem enableSuccessStartsBlackFrame : Obligations.EnableSuccessStartsBlackFrame := fun s hinit hdraw =>
  ⟨_, exec_enable_of_success hinit hdraw, colorAt_enableSucceeded s.afterDraw, slotAt_enableSucceeded s.afterDraw, rfl⟩

/-- Settles O35: after the draw RESULT alone is written. -/
theorem enableFailureChangesOnlyResult : Obligations.EnableFailureChangesOnlyResult := fun _ hinit hdraw =>
  exec_enable_of_failure hinit hdraw

/-- Settles O36: RESULT is READY as a number. -/
theorem isReadyReportsReadiness : Obligations.IsReadyReportsReadiness := by
  intro s
  simp only [exec, execIsReady, resultOfBool, State.ready_iff]

/-- Settles O37: the block is not ready. -/
theorem requestUpdateNotReadyIsDropped : Obligations.RequestUpdateNotReadyIsDropped := by
  intro s ord h
  refine exec_requestUpdate_of_not_ready ?_ ord
  obtain hinit | hbusy := h
  · simp [State.ready, hinit]
  · simp [State.ready, hbusy]

/-- Settles O38: the pass writes slots 0 to L-1 as COLOR stands, and START leaves the buffer. -/
theorem requestUpdateEncodesAndStarts : Obligations.RequestUpdateEncodesAndStarts := fun s ord hinit hbusy =>
  ⟨_, execRequestUpdate_of_ready hinit hbusy ord, fun _ _ hi hk => slotAt_encodePass ord s hi hk,
    fun _ hj => slotAt_encodePass_of_ge ord s hj, rfl⟩

/-- Settles O50: the invariant gives the state before, and the move made keeps it or takes a transition of R107. -/
theorem controllerFollowsTransitionTable : Obligations.ControllerFollowsTransitionTable := by
  intro s t h ht hm
  have hchoice : (nextMove s).2.controller = s.controller := by
    rw [nextMove_frame]
    rfl
  obtain hkept | ⟨a, b, ha, hb, hab⟩ := h.after_nextMove.follows_perform ht hm
  · obtain ⟨a, ha⟩ := h.exists_controller
    exact ⟨a, a, ha, (hkept.trans hchoice).trans ha, by cases a <;> decide⟩
  · exact ⟨a, b, hchoice.symm.trans ha, hb, by cases hab <;> decide⟩

end Sys2Proof.Machine
end

section
/-! PROOFS. The statements of 60_exceptions.md about the hardware backend: its initialization (R132), the DMA agent's two steps
(R133, R134), and the transfer a fair backend completes by itself (R136). -/

namespace Sys2Proof.Machine

/-! ## hardwareInitialize (R132) -/

/-- With a target the first listed outcome is drawn (log entry 4). -/
theorem hardwareInitialize_of_draw {s : State} {ok : Bool} {rest : List Bool} (htarget : s.target ≠ targetNone)
    (hdraws : s.draws = ok :: rest) : hardwareInitialize s = (ok, { s with draws := rest }) := by
  rw [hardwareInitialize, if_neg htarget, hdraws]

/-- Settles O32: a target is asked for first, then the listed draws. -/
theorem hardwareInitializeDrawsUnderItsLaw : Obligations.HardwareInitializeDrawsUnderItsLaw :=
  ⟨fun _ htarget => if_pos htarget, fun _ _ _ => hardwareInitialize_of_draw, hardwareInitialize_frame⟩

/-! ## DMA_EMIT and DMA_COMPLETE on the one open frame (R133, R134) -/

section

variable {s : State} {done : List Frame} {codes : List PulseCode} (hwire : s.wire = done ++ [⟨codes, .inFlight⟩])
  (hdone : ∀ f ∈ done, f.status ≠ .inFlight)

include hwire hdone

theorem dmaEmit_of_open : dmaEmit s =
    { s with wire := done ++ [⟨codes ++ [s.slotAt s.dmaPos], .inFlight⟩], dmaPos := s.dmaPos + 1 } := by
  rw [dmaEmit, hwire, map_last_open (fun _ => Frame.emit_of_not_open _) hdone]
  rfl

theorem dmaComplete_of_open : dmaComplete s =
    { s with wire := done ++ [⟨codes, .closed⟩], dmaActive := false, dmaPos := 0, busy := false } := by
  rw [dmaComplete, hwire, map_last_open (fun _ => Frame.close_of_not_open) hdone]
  rfl

end

/-- Settles O45: before the end of the buffer the DMA agent's step is DMA_EMIT, whatever FAULT is. -/
theorem dmaEmitsNextSlot : Obligations.DmaEmitsNextSlot := by
  intro s done codes hactive hpos hwire hdone
  rw [dmaStep_of_pos_lt hactive (hpos.trans_eq (bufferLength_eq _).symm), dmaEmit_of_open hwire hdone]

/-! ## Who clears BUSY (R134) -/

/-- No command clears BUSY. -/
theorem exec_busy_of_busy {i : Instr} {s t : State} (hbusy : s.busy = true) (h : exec i s = .next t) : t.busy = true := by
  obtain ⟨w, -, rfl⟩ | ⟨w, -, rfl⟩ | ⟨w, -, -, rfl⟩ | ⟨m, -, -, rfl⟩ | ⟨r, -, rfl⟩ | ⟨target, -, -, rfl⟩ | ⟨-, -, -, rfl⟩ |
    ⟨-, -, -, rfl⟩ | ⟨-, -, rfl⟩ | ⟨ord, -, -, rfl⟩ := exec_next_cases h
  · exact hbusy
  · exact hbusy
  · exact hbusy
  · exact hbusy
  · exact hbusy
  · exact hbusy
  · rfl
  · rwa [hardwareInitialize_frame]
  · exact hbusy
  · rfl

theorem cmdStep_busy_of_busy {s t : State} (hbusy : s.busy = true) (h : cmdStep s = .next t) : t.busy = true := by
  obtain ⟨-, ⟨w, why, rest, -, rfl⟩ | ⟨i, rest, -, hexec⟩⟩ := cmdStep_next_cases h
  · exact hbusy
  · exact exec_busy_of_busy (s := { s with host := rest }) hbusy hexec

/-- A move that clears BUSY is DMA_COMPLETE or a reset. -/
theorem perform_clears_busy {m : Move} {s t : State} (h : perform m s = .next t) (hbusy : s.busy = true)
    (hclear : t.busy = false) :
    (m = .dma ∧ s.dmaActive = true ∧ s.dmaPos = s.config.bufferLength) ∨ ∃ keepWire, m = .reset keepWire := by
  cases m with
  | cmd => exact nomatch hclear.symm.trans (cmdStep_busy_of_busy hbusy h)
  | dma =>
    obtain ⟨hactive, ⟨-, rfl⟩ | ⟨hpos, -⟩⟩ := dmaStep_next_cases h
    · exact nomatch hclear.symm.trans hbusy
    · exact .inl ⟨rfl, hactive, hpos⟩
  | reset keepWire => exact .inr ⟨keepWire, rfl⟩
  | supply | hold =>
    cases h
    exact nomatch hclear.symm.trans hbusy

/-- Settles O46: at the end of the buffer the DMA agent's step is DMA_COMPLETE, and `perform_clears_busy` for the next move. -/
theorem dmaCompleteAloneClearsBusy : Obligations.DmaCompleteAloneClearsBusy := by
  refine ⟨fun s done codes hactive hpos hwire hdone => ?_, fun s t h hbusy hclear => ?_⟩
  · rw [dmaStep_of_pos_eq hactive (hpos.trans (bufferLength_eq _).symm), dmaComplete_of_open hwire hdone]
  · have hclears := perform_clears_busy h (by rwa [nextMove_frame]) hclear
    rwa [nextMove_frame, bufferLength_eq] at hclears

/-! ## Runs one after the other -/

/-- A run that answers has answered its first step. -/
theorem exists_step_of_core_run {k : Nat} {s t : State} (h : Sys2Proof.core.run (k + 1) s = .next t) :
    ∃ u, step s = .next u ∧ Sys2Proof.core.run k u = .next t := by
  simp only [Host.Core.run] at h
  split at h
  · exact ⟨_, ‹_›, h⟩
  · cases h
  · cases h

theorem core_run_add {k : Nat} {s t : State} (h : Sys2Proof.core.run k s = .next t) (j : Nat) :
    Sys2Proof.core.run (k + j) s = Sys2Proof.core.run j t := by
  induction k generalizing s with
  | zero =>
    cases h
    rw [Nat.zero_add]
  | succ k ih =>
    obtain ⟨u, hstep, hrun⟩ := exists_step_of_core_run h
    rw [Nat.succ_add, core_run_next hstep, ih hrun]

theorem core_run_snoc {k : Nat} {s t u : State} (h : Sys2Proof.core.run k s = .next t) (hstep : step t = .next u) :
    Sys2Proof.core.run (k + 1) s = .next u :=
  (core_run_add h 1).trans (core_run_next hstep)

/-! ## An unlisted move of a machine with a fair backend (R136, log entry 3) -/

/-- The state in which an unlisted step of the DMA agent is taken: it waits no longer, and a free value is used. -/
def State.dmaTurn (s : State) : State := { s with dmaWait := none, freeCount := s.freeCount + 1 }

section

variable {s : State} (hmoves : s.moves = [])

include hmoves

theorem step_of_freeMove {p : Move × State} (h : freeMove s = p) :
    step s = perform p.1 { p.2 with freeCount := s.freeCount + 1 } := by
  simp only [step, nextMove, hmoves, h]

variable (hdma : dmaEnabled s = true) (hfair : s.config.dmaFair = true)

include hdma hfair

/-- A fair DMA agent moves, or lets CMD's side move and waits one move less. -/
theorem step_fair_cases : step s = dmaStep s.dmaTurn ∨
    ∃ p, freeCmdMove s = some p ∧ 0 < dmaPatience s ∧
      step s = perform p.1 { p.2 with dmaWait := some (dmaPatience s - 1), freeCount := s.freeCount + 1 } := by
  obtain ⟨-, hm⟩ | ⟨-, -, hunfair, -⟩ | ⟨-, -, hidle, -⟩ | ⟨p, hp, -, hpatient, hm⟩ | ⟨hidle, -, -⟩ := freeMove_cases s
  · exact .inl (step_of_freeMove hmoves hm)
  · exact nomatch hfair.symm.trans hunfair
  · exact nomatch hdma.symm.trans hidle
  · exact .inr ⟨p, hp, hpatient hfair, step_of_freeMove hmoves hm⟩
  · exact nomatch hdma.symm.trans hidle

/-- Where CMD's side has nothing to do, DMA moves. -/
theorem step_fair_of_cmd_idle (hcmd : freeCmdMove s = none) : step s = dmaStep s.dmaTurn := by
  obtain hstep | ⟨p, hp, -, -⟩ := step_fair_cases hmoves hdma hfair
  · exact hstep
  · exact nomatch hcmd.symm.trans hp

end

/-- CMD's side has nothing to do where CMD is not enabled and no word is to come. -/
theorem freeCmdMove_eq_none {s : State} (hcmd : cmdEnabled s = false) (htail : s.hostTail = .ended) :
    freeCmdMove s = none := by
  refine Option.eq_none_iff_forall_ne_some.mpr fun p hp => ?_
  obtain ⟨-, henabled⟩ | ⟨w, tail, -, hpop⟩ := freeCmdMove_cases hp
  · exact nomatch hcmd.symm.trans henabled
  · rw [htail] at hpop
    exact nomatch hpop

/-! ## A fair transfer beside an idle CMD: L - DMA_POS emits and the completion -/

/-- By induction on the slots still to emit, as in `run_transfer`, each move now the fair agent's own. -/
theorem run_fair_transfer {done : List Frame} (hdone : ∀ f ∈ done, f.status ≠ .inFlight) (left : Nat) {s : State}
    (hactive : s.dmaActive = true) (hleft : s.dmaPos + left = s.config.bufferLength)
    (hwire : s.wire = done ++ [⟨s.emitted, .inFlight⟩]) (hmoves : s.moves = []) (hfair : s.config.dmaFair = true)
    (hcmd : cmdEnabled s = false) (htail : s.hostTail = .ended) :
    Sys2Proof.core.run (left + 1) s = .next
      { s.afterTransfer done s.moves with dmaWait := none, freeCount := s.freeCount + (left + 1) } := by
  induction left generalizing s with
  | zero =>
    have hturn : step s = dmaStep s.dmaTurn := step_fair_of_cmd_idle hmoves
      (dmaEnabled_iff.mpr ⟨hactive, by omega⟩) hfair (freeCmdMove_eq_none hcmd htail)
    have hstep : step s = .next (dmaComplete s.dmaTurn) := hturn.trans (dmaStep_of_pos_eq (s := s.dmaTurn) hactive hleft)
    have hpos : s.dmaPos = s.config.bufferLength := hleft
    rw [core_run_next hstep, dmaComplete_of_open (s := s.dmaTurn) hwire hdone, State.afterTransfer, ← hpos]
    rfl
  | succ n ih =>
    have hturn : step s = dmaStep s.dmaTurn := step_fair_of_cmd_idle hmoves
      (dmaEnabled_iff.mpr ⟨hactive, by omega⟩) hfair (freeCmdMove_eq_none hcmd htail)
    have hleft' : (dmaEmit s.dmaTurn).dmaPos + n = (dmaEmit s.dmaTurn).config.bufferLength := by
      simp only [dmaEmit_dmaPos, dmaEmit_config, State.dmaTurn]
      omega
    have hstep : step s = .next (dmaEmit s.dmaTurn) :=
      hturn.trans (dmaStep_of_pos_lt (s := s.dmaTurn) hactive (by simp only [State.dmaTurn]; omega))
    have hemitted : (dmaEmit s.dmaTurn).wire = done ++ [⟨(dmaEmit s.dmaTurn).emitted, .inFlight⟩] := by
      rw [dmaEmit_of_open (s := s.dmaTurn) hwire hdone]
      exact congrArg (fun codes => done ++ [⟨codes, .inFlight⟩]) (emitted_succ s s.dmaPos).symm
    have hcount : s.freeCount + 1 + (n + 1) = s.freeCount + (n + 1 + 1) := by omega
    rw [core_run_next hstep, ih (s := dmaEmit s.dmaTurn) hactive hleft' hemitted hmoves hfair hcmd htail, ← hcount]
    rfl

/-! ## A fair transfer beside a working CMD -/

/-- While BUSY = 1 and INIT = 1 a command changes COLOR, RESULT and the fault registers alone (R109, R110, R114). -/
theorem exec_frame_of_busy {i : Instr} {s t : State} (hbusy : s.busy = true) (hinit : s.init = true)
    (h : exec i s = .next t) :
    t = { s with color := t.color, result := t.result, fault := t.fault, fcause := t.fcause, fcmd := t.fcmd } := by
  obtain ⟨w, -, rfl⟩ | ⟨w, -, rfl⟩ | ⟨w, -, -, rfl⟩ | ⟨m, -, -, rfl⟩ | ⟨r, -, rfl⟩ | ⟨-, -, hidle, -⟩ | ⟨-, huninit, -, -⟩ |
    ⟨-, huninit, -, -⟩ | ⟨-, -, rfl⟩ | ⟨-, -, hready, -⟩ := exec_next_cases h
  · rfl
  · rfl
  · rfl
  · rfl
  · rfl
  · exact nomatch hbusy.symm.trans hidle
  · exact nomatch hinit.symm.trans huninit
  · exact nomatch hinit.symm.trans huninit
  · rfl
  · exact nomatch hbusy.symm.trans (State.ready_iff.mp hready).2

/-- `s` has sent the first `n` slots of a transfer of `slots` into the frame after `done`, and lists no move. -/
structure Sending (c : Config) (slots : Memory PulseCode) (done : List Frame) (n : Nat) (s : State) : Prop where
  config : s.config = c
  tbuf : s.tbuf = slots
  init : s.init = true
  busy : s.busy = true
  active : s.dmaActive = true
  pos : s.dmaPos = n
  wire : s.wire = done ++ [⟨(List.range n).map (Memory.read 0 slots), .inFlight⟩]
  moves : s.moves = []

section

variable {c : Config} {slots : Memory PulseCode} {done : List Frame} {n : Nat} {s t : State}

theorem Sending.dmaEnabled (h : Sending c slots done n s) (hn : n ≤ c.bufferLength) : dmaEnabled s = true :=
  dmaEnabled_iff.mpr ⟨h.active, by rwa [h.pos, h.config]⟩

/-- What a step of CMD's side changes is no part of the transfer. -/
theorem Sending.of_frame (h : Sending c slots done n s)
    (ht : t = { s with color := t.color, result := t.result, fault := t.fault, fcause := t.fcause, fcmd := t.fcmd,
                       host := t.host, hostTail := t.hostTail, dmaWait := t.dmaWait, freeCount := t.freeCount }) :
    Sending c slots done n t := by
  rw [ht]
  exact ⟨h.config, h.tbuf, h.init, h.busy, h.active, h.pos, h.wire, h.moves⟩

/-- CMD's step leaves the transfer and the DMA agent's patience as they are. -/
theorem Sending.after_cmdStep (h : Sending c slots done n s) (ht : cmdStep s = .next t) :
    Sending c slots done n t ∧ t.dmaWait = s.dmaWait := by
  obtain ⟨-, ⟨w, why, rest, -, rfl⟩ | ⟨i, rest, -, hexec⟩⟩ := cmdStep_next_cases ht
  · exact ⟨h.of_frame rfl, rfl⟩
  · have hframe := exec_frame_of_busy (s := { s with host := rest }) h.busy h.init hexec
    exact ⟨h.of_frame (by rw [hframe]), by rw [hframe]⟩

/-- What CMD's side does by itself completes, and leaves the transfer as it is and the DMA agent the patience it was given. -/
theorem Sending.after_freeCmdMove (h : Sending c slots done n s) {p : Move × State} (hp : freeCmdMove s = some p)
    (wait : Option Nat) (count : Nat) :
    ∃ t, perform p.1 { p.2 with dmaWait := wait, freeCount := count } = .next t ∧ Sending c slots done n t ∧
      t.dmaWait = wait := by
  obtain ⟨rfl, henabled⟩ | ⟨w, tail, rfl, -⟩ := freeCmdMove_cases hp
  · have henabled' : cmdEnabled { s with dmaWait := wait, freeCount := count } = true := henabled
    obtain ⟨t, ht⟩ := cmdEnabled_iff_next.mp henabled'
    exact ⟨t, ht, (h.of_frame rfl).after_cmdStep ht⟩
  · exact ⟨_, rfl, h.of_frame rfl, rfl⟩

section

variable (hfair : c.dmaFair = true)

include hfair

/-- After some moves of CMD's side, at most as many as its patience, the fair DMA agent moves. -/
theorem Sending.exists_run_dmaTurn (hn : n ≤ c.bufferLength) (patience : Nat) (h : Sending c slots done n s)
    (hpatience : dmaPatience s = patience) :
    ∃ k t, Sys2Proof.core.run k s = .next t ∧ Sending c slots done n t ∧ step t = dmaStep t.dmaTurn := by
  induction patience generalizing s with
  | zero =>
    obtain hturn | ⟨p, -, hpatient, -⟩ := step_fair_cases h.moves (h.dmaEnabled hn) (h.config ▸ hfair)
    · exact ⟨0, s, rfl, h, hturn⟩
    · omega
  | succ m ih =>
    obtain hturn | ⟨p, hp, -, hstep⟩ := step_fair_cases h.moves (h.dmaEnabled hn) (h.config ▸ hfair)
    · exact ⟨0, s, rfl, h, hturn⟩
    · rw [hpatience] at hstep
      obtain ⟨t, ht, hsending, hwait⟩ := h.after_freeCmdMove hp (some m) (s.freeCount + 1)
      have hless : dmaPatience t = m := by rw [dmaPatience, hwait, Option.getD_some]
      obtain ⟨k, u, hrun, hu⟩ := ih hsending hless
      exact ⟨k + 1, u, (core_run_next (hstep.trans ht)).trans hrun, hu⟩

/-- Some steps later one more slot is sent (R133). -/
theorem Sending.exists_run_emit (hn : n < c.bufferLength) (h : Sending c slots done n s)
    (hdone : ∀ f ∈ done, f.status ≠ .inFlight) :
    ∃ k t, Sys2Proof.core.run k s = .next t ∧ Sending c slots done (n + 1) t := by
  obtain ⟨k, u, hrun, hu, hturn⟩ := h.exists_run_dmaTurn hfair hn.le _ rfl
  have hpos : u.dmaPos < u.config.bufferLength := by rwa [hu.pos, hu.config]
  have hstep : step u = .next (dmaEmit u.dmaTurn) := hturn.trans (dmaStep_of_pos_lt (s := u.dmaTurn) hu.active hpos)
  have hsent : (List.range (n + 1)).map (Memory.read 0 slots) =
      (List.range n).map (Memory.read 0 slots) ++ [u.slotAt u.dmaPos] := by
    rw [← hu.tbuf, hu.pos]
    exact emitted_succ u n
  rw [dmaEmit_of_open (s := u.dmaTurn) hu.wire hdone] at hstep
  exact ⟨k + 1, _, core_run_snoc hrun hstep,
    { hu with
      pos := congrArg (· + 1) hu.pos
      wire := by rw [hsent]; rfl }⟩

/-- The remaining slots one by one, and then DMA_COMPLETE (R134, R136). -/
theorem Sending.exists_run_complete (hdone : ∀ f ∈ done, f.status ≠ .inFlight) (left : Nat)
    (hleft : n + left = c.bufferLength) (h : Sending c slots done n s) :
    ∃ k t, Sys2Proof.core.run k s = .next t ∧ t.busy = false ∧
      t.wire = done ++ [⟨(List.range c.bufferLength).map (Memory.read 0 slots), .closed⟩] := by
  induction left generalizing n s with
  | zero =>
    obtain ⟨k, u, hrun, hu, hturn⟩ := h.exists_run_dmaTurn hfair hleft.le _ rfl
    have hpos : u.dmaPos = u.config.bufferLength := by rwa [hu.pos, hu.config]
    have hstep : step u = .next (dmaComplete u.dmaTurn) :=
      hturn.trans (dmaStep_of_pos_eq (s := u.dmaTurn) hu.active hpos)
    rw [dmaComplete_of_open (s := u.dmaTurn) hu.wire hdone] at hstep
    exact ⟨k + 1, _, core_run_snoc hrun hstep, rfl, by rw [← hleft]⟩
  | succ m ih =>
    obtain ⟨k, u, hrun, hu⟩ := h.exists_run_emit hfair (by omega) hdone
    obtain ⟨j, t, hrun', ht⟩ := ih (by omega) hu
    exact ⟨k + j, t, (core_run_add hrun j).trans hrun', ht⟩

end

end

/-- Settles O59: the invariant says that the transfer is under way, and `Sending.exists_run_complete` and `run_fair_transfer`
finish it. -/
theorem fairBackendCompletesTransfer : Obligations.FairBackendCompletesTransfer := by
  intro s h hactive hfair hmoves
  obtain ⟨done, hwire, hsettled⟩ := h.wireActive hactive
  have hdone : ∀ f ∈ done, f.status ≠ .inFlight := fun f hf => (hsettled f hf).notOpen
  have hleft : s.dmaPos + (s.config.bufferLength - s.dmaPos) = s.config.bufferLength := Nat.add_sub_of_le h.posBound
  have hbusy : s.busy = true := h.busyIsActive.trans hactive
  have hsending : Sending s.config s.tbuf done s.dmaPos s :=
    ⟨rfl, rfl, h.busyInit hbusy, hbusy, hactive, rfl, hwire, hmoves⟩
  exact ⟨done, s.emitted, hwire, hsending.exists_run_complete hfair hdone _ hleft,
    run_fair_transfer hdone _ hactive hleft hwire hmoves hfair⟩

end Sys2Proof.Machine
end

section
/-! PROOFS. The statements of 60_exceptions.md about faults: what a fault records and which commands raise it (R120 to R123), what
it halts (R124), what clears it (R125), and the final states (R144). -/

namespace Sys2Proof

/-- An illegal word comes with its data words, if OP says it has any (R82). -/
theorem exists_word_of_decode_illegal {n : Nat} {stream rest : List CmdWord} {w : CmdWord} {why : Reject}
    (h : decode n stream = .illegal w why rest) :
    ∃ ws, stream = w :: ws ∧ rest = ws.drop (dataWordCount n w) := by
  cases stream with
  | nil => cases h
  | cons v ws =>
    obtain hlen | hlen := lt_or_ge ws.length (dataWordCount n v)
    · cases (decode_of_short hlen).symm.trans h
    · cases hdec : decodeWord v (ws.take n) with
      | error why' =>
        cases (decode_of_decodeWord_error hlen hdec).symm.trans h
        exact ⟨ws, rfl, rfl⟩
      | ok i => cases (decode_of_decodeWord_ok hlen hdec).symm.trans h

end Sys2Proof

namespace Sys2Proof.Machine

/-! ## Which faults a command raises (R120, R121) -/

/-- The faults of R121's table that `exec` raises for a command, each with the word R120 names. -/
inductive Raises : Instr → Cause → CmdWord → Prop where
  | indexRange {i : Instr} (hi : i.opcode ∈ [Opcode.setColor, .getColor, .setChannel, .scaleChannel]) :
      Raises i .indexRange (encodeWord i)
  | badDataWord {data : List CmdWord} {d : CmdWord} (hd : firstBadDataWord data = some d) :
      Raises (.fillFrom data) .badDataWord d
  | initWhileBusy (target : Target) : Raises (.initTarget target) .initWhileBusy (encodeWord (.initTarget target))

/-- A command faults as R121 lists, or it leaves FAULT as it is. -/
theorem exec_raises_or_keeps {i : Instr} {s t : State} (h : exec i s = .next t) :
    (∃ cause w, Raises i cause w ∧ t = raiseFault cause w s) ∨ t.fault = s.fault := by
  cases i with
  | setColor idx c | getColor idx | setChannel idx v | scaleChannel idx pct =>
    simp only [exec, execSetColor, execGetColor, execSetChannel, execScaleChannel] at h
    split_ifs at h <;> cases h
    · exact .inr rfl
    · exact .inl ⟨_, _, .indexRange (by simp [Instr.opcode]), rfl⟩
  | fill =>
    cases h
    exact .inr rfl
  | fillFrom data =>
    simp only [exec, execFillFrom] at h
    split_ifs at h
    split at h <;> cases h
    · exact .inl ⟨_, _, .badDataWord ‹_›, rfl⟩
    · exact .inr rfl
  | initTarget target =>
    simp only [exec, execInitTarget] at h
    split_ifs at h <;> cases h
    · exact .inl ⟨_, _, .initWhileBusy target, rfl⟩
    · exact .inr rfl
  | enable =>
    simp only [exec, execEnable_eq] at h
    split_ifs at h <;> cases h
    · exact .inr rfl
    · rw [hardwareInitialize_frame]
      exact .inr rfl
    · rw [hardwareInitialize_frame]
      exact .inr rfl
  | isReady =>
    cases h
    exact .inr rfl
  | requestUpdate ord =>
    simp only [exec, execRequestUpdate] at h
    split_ifs at h <;> cases h
    · exact .inr rfl
    · exact .inr rfl

/-- The faults of a word that the CMD agent takes with the words `ws` behind it: ILLEGAL_COMMAND with the word itself, or a fault
of the command it stands for (R120, R121). -/
def WordRaises (n : Nat) (w : CmdWord) (ws : List CmdWord) (cause : Cause) (fcmd : CmdWord) : Prop :=
  (cause = .illegalCommand ∧ fcmd = w) ∨ ∃ i, decodeWord w (ws.take n) = .ok i ∧ Raises i cause fcmd

/-- Where CMD's step faults it has taken the word with its data words and entered the fault, and done nothing else (R123). -/
theorem cmdStep_fault_cases {s t : State} (hf : s.fault = false) (h : cmdStep s = .next t) (ht : t.fault = true) :
    ∃ w ws cause fcmd, s.host = w :: ws ∧ WordRaises s.config.ledCapacity w ws cause fcmd ∧
      t = raiseFault cause fcmd { s with host := ws.drop (dataWordCount s.config.ledCapacity w) } := by
  obtain ⟨-, ⟨w, why, rest, hd, rfl⟩ | ⟨i, rest, hd, hexec⟩⟩ := cmdStep_next_cases h
  · obtain ⟨ws, hs, rfl⟩ := exists_word_of_decode_illegal hd
    exact ⟨w, ws, _, _, hs, .inl ⟨rfl, rfl⟩, rfl⟩
  · obtain ⟨w, ws, hs, hdec, rfl⟩ := exists_word_of_decode hd
    obtain ⟨cause, fcmd, hraises, rfl⟩ | hkept := exec_raises_or_keeps hexec
    · exact ⟨w, ws, cause, fcmd, hs, .inr ⟨i, hdec, hraises⟩, rfl⟩
    · exact nomatch ht.symm.trans (hkept.trans hf)

/-- FCMD is the command word for every fault but BAD_DATA_WORD (R120). -/
theorem WordRaises.fcmd_eq {n : Nat} {w fcmd : CmdWord} {ws : List CmdWord} {cause : Cause}
    (h : WordRaises n w ws cause fcmd) (hcause : cause ≠ .badDataWord) : fcmd = w := by
  obtain ⟨-, rfl⟩ | ⟨i, hdec, hraises⟩ := h
  · rfl
  · cases hraises with
    | indexRange | initWhileBusy => exact encodeWord_of_decodeWord hdec
    | badDataWord => exact absurd rfl hcause

/-- The first bad data word in its place: those before it have bits 63:24 zero, it has not (R74, R122). -/
theorem exists_split_of_firstBadDataWord {data : List CmdWord} {d : CmdWord} (h : firstBadDataWord data = some d) :
    ∃ good rest, data = good ++ d :: rest ∧ (∀ x ∈ good, x.extractLsb' 24 40 = 0) ∧ d.extractLsb' 24 40 ≠ 0 := by
  obtain ⟨hbad, good, rest, hdata, hgood⟩ := List.find?_eq_some_iff_append.mp h
  exact ⟨good, rest, hdata, by simpa [dataWordOk] using hgood, by simpa [dataWordOk] using hbad⟩

/-- FCMD is the first bad one of the N data words for BAD_DATA_WORD (R120, R122). -/
theorem WordRaises.fcmd_badDataWord {n : Nat} {w fcmd : CmdWord} {ws : List CmdWord}
    (h : WordRaises n w ws .badDataWord fcmd) : ∃ good rest, ws = good ++ fcmd :: rest ∧ good.length < n ∧
      (∀ d ∈ good, d.extractLsb' 24 40 = 0) ∧ fcmd.extractLsb' 24 40 ≠ 0 := by
  obtain ⟨hcause, -⟩ | ⟨i, hdec, hraises⟩ := h
  · exact nomatch hcause
  · cases hraises with
    | @badDataWord data d hd =>
      have hdata : data = ws.take n := by
        have hw : fieldOp w = Opcode.byte .fillFrom := by
          rw [← encodeWord_of_decodeWord hdec, fieldOp_fillFrom]
        rw [← dataWordCount_of_fillFrom (n := n) hw]
        exact dataWords_of_decodeWord hdec
      obtain ⟨good, rest, hsplit, hgood, hbad⟩ := exists_split_of_firstBadDataWord hd
      have htake : ws.take n = good ++ fcmd :: rest := hdata.symm.trans hsplit
      refine ⟨good, rest ++ ws.drop n, ?_, ?_, hgood, hbad⟩
      · rw [← List.cons_append, ← List.append_assoc, ← htake, List.take_append_drop]
      · have hlen : (good ++ fcmd :: rest).length ≤ n := htake ▸ List.length_take_le n ws
        rw [List.length_append, List.length_cons] at hlen
        omega

/-- Settles O41: `cmdStep_fault_cases` gives the state, and the word R120 names for each cause is in the stream. -/
theorem faultsArePrecise : Obligations.FaultsArePrecise := by
  intro s t hf h ht
  obtain ⟨w, ws, cause, fcmd, hs, hraises, rfl⟩ := cmdStep_fault_cases hf h ht
  refine ⟨cause, fcmd, rfl, ⟨w :: ws.take (dataWordCount s.config.ledCapacity w), List.cons_ne_nil _ _, ?_⟩, fun hcause => ?_,
    fun hcause => ?_⟩
  · rw [hs, List.cons_append, raiseFault_host, List.take_append_drop]
  · rw [hs, hraises.fcmd_eq hcause, List.head?_cons]
  · subst hcause
    rw [hs]
    exact hraises.fcmd_badDataWord

/-- The OP byte of an accepted word is its command's. -/
theorem fieldOp_of_decodeWord {w : CmdWord} {data : List CmdWord} {i : Instr} (h : decodeWord w data = .ok i) :
    fieldOp w = i.opcode.byte := by
  rw [← encodeWord_of_decodeWord h, fieldOp_encodeWord]

theorem byte_mem_of_index : ∀ op ∈ [Opcode.setColor, .getColor, .setChannel, .scaleChannel],
    op.byte ∈ [(0x01 : BitVec 8), 0x02, 0x03, 0x04] := by decide

/-- The DMA agent leaves the fault registers as they are (R121). -/
theorem dmaStep_faultRegisters {s t : State} (h : dmaStep s = .next t) :
    t.fault = s.fault ∧ t.fcause = s.fcause ∧ t.fcmd = s.fcmd := by
  obtain ⟨-, ⟨-, rfl⟩ | ⟨-, rfl⟩⟩ := dmaStep_next_cases h
  · exact ⟨rfl, rfl, rfl⟩
  · exact ⟨rfl, rfl, rfl⟩

/-- Settles O42: each way a word faults is a row of R121. -/
theorem eachCommandRaisesItsFaultsOnly : Obligations.EachCommandRaisesItsFaultsOnly := by
  refine ⟨fun s t w ws hf hs h ht => ?_, fun _ _ => dmaStep_faultRegisters⟩
  obtain ⟨w', ws', cause, fcmd, hs', hraises, rfl⟩ := cmdStep_fault_cases hf h ht
  cases hs.symm.trans hs'
  obtain ⟨rfl, -⟩ | ⟨i, hdec, hraises⟩ := hraises
  · exact .inl rfl
  · have hop : w.extractLsb' 56 8 = i.opcode.byte := fieldOp_of_decodeWord hdec
    rw [hop]
    cases hraises with
    | indexRange hi => exact .inr (.inl ⟨byte_mem_of_index _ hi, rfl⟩)
    | badDataWord => exact .inr (.inr (.inl ⟨rfl, rfl⟩))
    | initWhileBusy => exact .inr (.inr (.inr ⟨rfl, rfl⟩))

/-! ## While FAULT = 1 (R124) -/

theorem cmdEnabled_of_fault {s : State} (hf : s.fault = true) : cmdEnabled s = false := by
  rw [cmdEnabled, hf, Bool.not_true, Bool.false_and]

theorem cmdStep_of_fault {s : State} (hf : s.fault = true) : cmdStep s = .fault .cmdHalted := if_pos hf

/-- The DMA agent does not read FAULT (R124, R133). -/
theorem dmaStep_withFault (s : State) (b : Bool) :
    dmaStep { s with fault := b } = mapNext (fun t => { t with fault := b }) (dmaStep s) := by
  rw [dmaStep, dmaStep, apply_ite (mapNext _), apply_ite (mapNext _)]
  rfl

/-- Settles O43: CMD asks FAULT first, and the DMA agent does not read it. -/
theorem faultHaltsCommandsNotTransfers : Obligations.FaultHaltsCommandsNotTransfers := by
  refine fun s hf => ⟨cmdEnabled_of_fault hf, cmdStep_of_fault hf, fun ⟨hnone, _⟩ => (nomatch hf.symm.trans hnone),
    fun t ht => ?_⟩
  have hs : { s with fault := true } = s := by rw [← hf]
  have hstep := dmaStep_withFault { s with fault := false } true
  rwa [ht, hs] at hstep

/-! ## What clears a fault (R125) -/

/-- No move but a reset changes the fault registers of a faulted state. -/
theorem perform_faultRegisters {m : Move} {s t : State} (hf : s.fault = true) (h : perform m s = .next t)
    (hm : ∀ keepWire, m ≠ .reset keepWire) : t.fault = s.fault ∧ t.fcause = s.fcause ∧ t.fcmd = s.fcmd := by
  cases m with
  | cmd => exact nomatch (cmdStep_of_fault hf).symm.trans h
  | dma => exact dmaStep_faultRegisters h
  | reset keepWire => exact absurd rfl (hm keepWire)
  | supply | hold =>
    cases h
    exact ⟨rfl, rfl, rfl⟩

/-- Settles O44: a listed reset is performed as it stands, and no free move is a reset. -/
theorem onlyResetClearsFault : Obligations.OnlyResetClearsFault := by
  refine fun s t hf h => ⟨fun keepWire ms hmoves => ?_, fun hmoves => ?_⟩
  · rw [step_of_moves hmoves] at h
    cases h
    exact ⟨rfl, rfl, rfl⟩
  · have hkept := perform_faultRegisters (by rwa [nextMove_frame]) h fun keepWire hreset =>
      have ⟨ms, hms⟩ := moves_of_nextMove_reset hreset
      hmoves keepWire ms hms
    rw [nextMove_frame, hf] at hkept
    exact hkept

/-! ## Final states (R144) -/

/-- Settles O51: CMD has no word, and no transfer is in flight. -/
theorem finalStatesHaveNoAgentStep : Obligations.FinalStatesHaveNoAgentStep := by
  rintro s ⟨hf, hidle, hempty, -, -⟩
  have hd : decode s.config.ledCapacity s.host = .noWord := by rw [hempty, decode]
  exact ⟨by simp only [cmdEnabled, hd, Bool.and_false], by rw [dmaEnabled, hidle, Bool.false_and],
    by simp [cmdStep, hf, hd]⟩

end Sys2Proof.Machine
end

section
/-! PROOFS. The statements of 70_reset_and_hazards.md: what sets BUSY, what a report of READY promises (R155), and what a reset of
a running block leaves (R146, R148). -/

namespace Sys2Proof.Machine

/-! ## Who sets BUSY (R117, R155) -/

/-- Command `i` in state `s` has begun a transfer, and is one of the two that may (R111, R115, R117). -/
structure StartsTransfer (i : Instr) (s t : State) : Prop where
  active : t.dmaActive = true
  pos : t.dmaPos = 0
  command : i.opcode = .requestUpdate ∧ s.init = true ∨ i.opcode = .enable ∧ s.init = false ∧ t.result = 1

/-- A command that sets BUSY goes through START, from an accepted REQUESTUPDATE or a successful ENABLE. -/
theorem exec_sets_busy {i : Instr} {s t : State} (h : exec i s = .next t) (hbusy : s.busy = false) (hset : t.busy = true) :
    StartsTransfer i s t := by
  have hchanged : t.busy ≠ s.busy := fun hkept => nomatch hset.symm.trans (hkept.trans hbusy)
  obtain ⟨w, -, rfl⟩ | ⟨w, -, rfl⟩ | ⟨w, -, -, rfl⟩ | ⟨m, -, -, rfl⟩ | ⟨r, -, rfl⟩ | ⟨target, -, -, rfl⟩ |
    ⟨henable, hinit, -, rfl⟩ | ⟨-, -, -, rfl⟩ | ⟨-, -, rfl⟩ | ⟨ord, hupdate, hready, rfl⟩ := exec_next_cases h
  · exact absurd rfl hchanged
  · exact absurd rfl hchanged
  · exact absurd rfl hchanged
  · exact absurd rfl hchanged
  · exact absurd rfl hchanged
  · exact absurd rfl hchanged
  · exact ⟨rfl, rfl, .inr ⟨henable, hinit, rfl⟩⟩
  · rw [hardwareInitialize_frame] at hchanged
    exact absurd rfl hchanged
  · exact absurd rfl hchanged
  · exact ⟨rfl, rfl, .inl ⟨hupdate, (State.ready_iff.mp hready).1⟩⟩

theorem cmdStep_sets_busy {s t : State} (h : cmdStep s = .next t) (hbusy : s.busy = false) (hset : t.busy = true) :
    ∃ i rest, decode s.config.ledCapacity s.host = .command i rest ∧ StartsTransfer i s t := by
  obtain ⟨-, ⟨w, why, rest, -, rfl⟩ | ⟨i, rest, hd, hexec⟩⟩ := cmdStep_next_cases h
  · exact nomatch hset.symm.trans hbusy
  · exact ⟨i, rest, hd, { exec_sets_busy (s := { s with host := rest }) hexec hbusy hset with }⟩

theorem dmaStep_busy_of_not_busy {s t : State} (h : dmaStep s = .next t) (hbusy : s.busy = false) : t.busy = false := by
  obtain ⟨-, ⟨-, rfl⟩ | ⟨-, rfl⟩⟩ := dmaStep_next_cases h
  · exact hbusy
  · rfl

/-- A move that sets BUSY is CMD's, and its command starts the transfer. -/
theorem perform_sets_busy {m : Move} {s t : State} (h : perform m s = .next t) (hbusy : s.busy = false)
    (hset : t.busy = true) :
    m = .cmd ∧ ∃ i rest, decode s.config.ledCapacity s.host = .command i rest ∧ StartsTransfer i s t := by
  cases m with
  | cmd => exact ⟨rfl, cmdStep_sets_busy h hbusy hset⟩
  | dma => exact nomatch hset.symm.trans (dmaStep_busy_of_not_busy h hbusy)
  | reset keepWire =>
    cases h
    exact nomatch hset
  | supply | hold =>
    cases h
    exact nomatch hset.symm.trans hbusy

/-- Settles O47: `perform_sets_busy` for the next move, whose choice touches neither the stream's words nor INIT. -/
theorem busySetOnlyByUpdateOrEnable : Obligations.BusySetOnlyByUpdateOrEnable := by
  intro s t h hbusy hset
  obtain ⟨hcmd, i, rest, hd, hstarts⟩ := perform_sets_busy h (by rwa [nextMove_frame]) hset
  rw [nextMove_frame] at hd hstarts
  exact ⟨hcmd, hstarts.active, hstarts.pos, i, rest, hd, hstarts.command⟩

/-! ## READY, once reported (R155) -/

theorem resultOfBool_eq_one {b : Bool} : resultOfBool b = 1 ↔ b = true := by
  cases b <;> decide

/-- Settles O40: RESULT = 1 is READY, which ISREADY leaves as it was, and a ready block accepts the update (R113, R115). -/
theorem readyMeansNextUpdateIsAccepted : Obligations.ReadyMeansNextUpdateIsAccepted := by
  intro s t ord h hresult
  cases h
  obtain ⟨hinit, hbusy⟩ := State.ready_iff.mp (resultOfBool_eq_one.mp hresult)
  exact ⟨_, execRequestUpdate_of_ready (s := { s with result := resultOfBool s.ready }) hinit hbusy ord, rfl, rfl⟩

/-! ## A reset of a running block (R146, R148) -/

/-- A reset across which the observer keeps WIRE truncates the frame in flight, which holds DMA_POS codes, and leaves the settled
frames before it (R148). -/
theorem State.Inv.resetBlock_truncates_wire {s : State} (h : s.Inv) (hactive : s.dmaActive = true) :
    ∃ done codes, s.wire = done ++ [⟨codes, .inFlight⟩] ∧ (resetBlock true s).wire = done ++ [⟨codes, .truncated⟩] ∧
      codes.length = s.dmaPos := by
  obtain ⟨done, hwire, hdone⟩ := h.wireActive hactive
  have htruncated : s.wire.map Frame.truncate = done ++ [⟨s.emitted, .truncated⟩] :=
    hwire ▸ map_last_open (fun _ => Frame.truncate_of_not_open) (fun f hf => (hdone f hf).notOpen) _
  exact ⟨done, s.emitted, hwire, by rw [resetBlock_wire, hactive, Bool.and_self, if_pos rfl, htruncated],
    by simp [State.emitted]⟩

/-- A reset empties WIRE where the observer does not keep it, or no transfer is in flight (R146, R148). -/
theorem resetBlock_empties_wire {s : State} {keepWire : Bool} (h : keepWire = false ∨ s.dmaActive = false) :
    (resetBlock keepWire s).wire = [] :=
  if_neg (Bool.eq_false_iff.mp (Bool.and_eq_false_iff.mpr h))

/-- Settles O53: the listed reset is `resetBlock`, whose other fields are its reset values and the host's inputs (log entry 7). -/
theorem resetOfRunningBlock : Obligations.ResetOfRunningBlock := by
  intro s keepWire ms h hmoves
  refine ⟨resetBlock keepWire { s with moves := ms }, step_of_moves hmoves, rfl,
    resetBlock_empties_wire (s := { s with moves := ms }), fun hkeep hactive => ?_⟩
  subst hkeep
  exact State.Inv.resetBlock_truncates_wire (s := { s with moves := ms }) (h.of_inputs rfl) hactive

end Sys2Proof.Machine
end
